-- ==== Sys2Proof/Word.lean ====
section
/-! DEFINITION. The values that move through base64_codec: bytes, symbols, the words of the two command ports and of
the two response ports, the kinds of character, the status codes and the two response records
(00_scope.md R5, R6, R9; 30_encoding.md R70). -/

namespace Sys2Proof

/-- A data byte or a character code: 8 bits (00_scope.md R5, `BYTE_W`, `CHAR_W`). -/
abbrev Byte := BitVec 8

/-- A symbol, "a 6-bit value in [0,63]" (00_scope.md R5, R9). -/
abbrev Sym := BitVec 6

/-- A command word, format `CMD`, the same on both command ports (30_encoding.md R71). -/
abbrev CmdWord := BitVec 10

/-- An encoder response word, format `ERSP` (30_encoding.md R76). -/
abbrev ErspWord := BitVec 34

/-- A decoder response word, format `DRSP` (30_encoding.md R78). -/
abbrev DrspWord := BitVec 29

/-- Where a word arrives: the two command ports and the two internal ROM address ports. "Which unit a word addresses is
decided by the port it arrives on, not by a bit of the word" (30_encoding.md R71, R74, R84). -/
inductive Port where
  /-- `enc_cmd`, 10 bits. -/
  | encCmd
  /-- `dec_cmd`, 10 bits. -/
  | decCmd
  /-- The forward ROM's address, format `SADDR`, 6 bits. -/
  | romSym
  /-- The inverse ROM's address, format `CADDR`, 8 bits. -/
  | romChr
deriving DecidableEq, Repr

/-- How many bits a port carries (30_encoding.md R70). -/
def Port.width : Port → Nat
  | .encCmd => 10
  | .decCmd => 10
  | .romSym => 6
  | .romChr => 8

/-- A word as it is presented: the port and the bits, bit 0 least significant. -/
structure PortWord where
  port : Port
  bits : Nat
deriving DecidableEq, Repr

/-- The class of a character as the inverse ROM reports it (00_scope.md R9, 40_alphabet_lut.md R105). -/
inductive CharClass where
  /-- Neither one of the 64 characters nor the padding character. -/
  | inv
  /-- One of the 64 characters of the alphabet. -/
  | sym
  /-- The padding character. -/
  | pad
deriving DecidableEq, Repr

/-- The 2-bit code space shared by `dec.err` and by the `status` field of `DRSP` (10_state.md R26, 30_encoding.md R79,
60_exceptions.md R221): four codes, four values of 2 bits. `ok` is read as `NONE` in `dec.err`. -/
inductive Code where
  /-- 0: `OK` in `status`, `NONE` in `dec.err`. -/
  | ok
  /-- 1. -/
  | invalidSymbol
  /-- 2: a status only, "never held in `dec.err`" (10_state.md R26). -/
  | malformedLength
  /-- 3. -/
  | malformedPadding
deriving DecidableEq, Repr

/-- The number of a code (30_encoding.md R79). -/
def Code.bits : Code → BitVec 2
  | .ok => 0
  | .invalidSymbol => 1
  | .malformedLength => 2
  | .malformedPadding => 3

/-- The code with a given number (30_encoding.md R79). -/
def Code.ofBits (b : BitVec 2) : Code :=
  if b = 0 then .ok else if b = 1 then .invalidSymbol else if b = 2 then .malformedLength else .malformedPadding

/-- The record an encoder command responds with: the characters emitted, first element first, and the end mark
(00_scope.md R8, R9 "Response"). -/
structure EncRecord where
  chars : List Byte
  last : Bool
deriving DecidableEq, Repr

/-- The record a decoder command responds with: the bytes emitted, first element first, the end mark and the status
(00_scope.md R8, R9 "Response"). -/
structure DecRecord where
  bytes : List Byte
  last : Bool
  status : Code
deriving DecidableEq, Repr

end Sys2Proof
end

