-- ==== Sys2Proof/Config.lean ====
section
/-! DEFINITION. The parameters of 00_scope.md R5 that are no type. Every one has its value but `F_CLK`, which the spec
leaves open and no rule reads. The widths are the types of Word.lean; the alphabet and the padding character are in
Machine/Rom.lean. The spec has no unspecified value in any response (43_message_contract.md R201), so this file holds no
other free value. -/

namespace Sys2Proof

/-- `GROUP_BYTES`, bytes per group (00_scope.md R5). -/
def Config.groupBytes : Nat := 3

/-- `GROUP_CHARS`, characters per group (00_scope.md R5). -/
def Config.groupChars : Nat := 4

/-- `F_CLK`, the clock frequency: `OPEN`, "not observable by any rule" (00_scope.md R5, 92_eei_decisions.md D26). A free
value without a body; nothing in the model reads it (notes/assumptions/14.md). -/
opaque Config.fClk : Nat

end Sys2Proof
end

