-- ==== Sys2Proof/Syntax.lean ====
section
/-! DEFINITION. The instructions: one constructor per row of spec/opcode_table.json, in the table's order
(30_encoding.md R85). -/

namespace Sys2Proof

/-- The four encoder commands, the four decoder commands and the two ROM reads. A command without data has no operand:
"When `has_data = 0` the `data` field is ignored" (30_encoding.md R73). -/
inductive Instr where
  /-- `ENC.NOP` (41_encoder.md R124). -/
  | encNop
  /-- `ENC.PUSH b` (41_encoder.md R125). -/
  | encPush (b : Byte)
  /-- `ENC.FLUSH` (41_encoder.md R126). -/
  | encFlush
  /-- `ENC.PUSHL b` (41_encoder.md R127). -/
  | encPushl (b : Byte)
  /-- `DEC.NOP` (42_decoder.md R154). -/
  | decNop
  /-- `DEC.PUSH c` (42_decoder.md R155). -/
  | decPush (c : Byte)
  /-- `DEC.END` (42_decoder.md R156). -/
  | decEnd
  /-- `DEC.PUSHL c` (42_decoder.md R157). -/
  | decPushl (c : Byte)
  /-- `LUT.S2C v` (40_alphabet_lut.md R103). -/
  | lutS2c (v : Sym)
  /-- `LUT.C2S c` (40_alphabet_lut.md R105). -/
  | lutC2s (c : Byte)
deriving DecidableEq, Repr

/-- The port an instruction is presented on: the table's column "port" (30_encoding.md R72, R85). -/
def Instr.port : Instr → Port
  | .encNop => .encCmd
  | .encPush _ => .encCmd
  | .encFlush => .encCmd
  | .encPushl _ => .encCmd
  | .decNop => .decCmd
  | .decPush _ => .decCmd
  | .decEnd => .decCmd
  | .decPushl _ => .decCmd
  | .lutS2c _ => .romSym
  | .lutC2s _ => .romChr

end Sys2Proof
end

