-- ==== Sys2Proof/WellFormed.lean ====
section
/-! DEFINITION. What is well formed: a word that fits its port, an instruction whose operands fit their fields, and a
response record of a shape a command can produce (20_memory.md R54, 30_encoding.md R70, R77, R78, R80). -/

namespace Sys2Proof

/-- The word has no bit above its port's width (30_encoding.md R70). -/
def PortWord.wellFormed (p : PortWord) : Bool := decide (p.bits < 2 ^ p.port.width)

/-- Every operand lies in its field. The operand types have exactly the fields' widths and no command word is illegal
(30_encoding.md R73, R80), so no term of `Instr` fails; the words that can fail are checked by `PortWord.wellFormed`. -/
def Instr.wellFormed : Instr → Bool
  | .encNop => true
  | .encPush b => decide (b.toNat < 2 ^ 8)
  | .encFlush => true
  | .encPushl b => decide (b.toNat < 2 ^ 8)
  | .decNop => true
  | .decPush c => decide (c.toNat < 2 ^ 8)
  | .decEnd => true
  | .decPushl c => decide (c.toNat < 2 ^ 8)
  | .lutS2c v => decide (v.toNat < 2 ^ 6)
  | .lutC2s c => decide (c.toNat < 2 ^ 8)

/-- An encoder response carries "0 or 4 characters ..., never 1, 2 or 3" (20_memory.md R54). -/
def EncRecord.wellFormed (r : EncRecord) : Bool := r.chars.length == 0 || r.chars.length == 4

/-- A decoder response carries at most 3 bytes (20_memory.md R54), its status is 0 when `last = 0`, and a status other
than `OK` comes with no byte (30_encoding.md R78, R80). -/
def DecRecord.wellFormed (r : DecRecord) : Bool :=
  decide (r.bytes.length ≤ 3) && (r.last || r.status == .ok) && (r.status == .ok || r.bytes.isEmpty)

end Sys2Proof
end

