-- ==== Sys2Proof/Decode.lean ====
section
/-! DEFINITION. Reading a presented word as an instruction, and the encoder beside it, both from the encoding tables of
30_encoding.md R71, R72, R84, R85. A word is presented on a port; the port selects the unit (R71). -/

namespace Sys2Proof

/-- Field `last`, bit 9 (30_encoding.md R71). -/
def cmdLast (w : CmdWord) : Bool := w[9]

/-- Field `has_data`, bit 8 (30_encoding.md R71). -/
def cmdHasData (w : CmdWord) : Bool := w[8]

/-- Field `data`, bits 7 to 0, used exactly as it stands (30_encoding.md R71, R73). -/
def cmdData (w : CmdWord) : Byte := w.extractLsb' 0 8

/-- Command selection on `enc_cmd` (30_encoding.md R72): total, no word is illegal (R80). -/
def decodeEnc (w : CmdWord) : Instr :=
  match cmdLast w, cmdHasData w with
  | false, false => .encNop
  | false, true => .encPush (cmdData w)
  | true, false => .encFlush
  | true, true => .encPushl (cmdData w)

/-- Command selection on `dec_cmd` (30_encoding.md R72): total, no word is illegal (R80). -/
def decodeDec (w : CmdWord) : Instr :=
  match cmdLast w, cmdHasData w with
  | false, false => .decNop
  | false, true => .decPush (cmdData w)
  | true, false => .decEnd
  | true, true => .decPushl (cmdData w)

/-- Why bits are no word of a port. The spec has no illegal command word (30_encoding.md R80), so the only reason is a
value that does not fit the port. -/
inductive DecodeError where
  /-- A bit above the port's width is set (30_encoding.md R70). Raised by `decodeWord`; safe. -/
  | tooWide (p : Port)
deriving DecidableEq, Repr

/-- The instruction a word presented on a port stands for; total on any bits, refusing by name those that do not fit. -/
def decodeWord (p : PortWord) : Except DecodeError Instr :=
  if p.wellFormed then
    match p.port with
    | .encCmd => .ok (decodeEnc (BitVec.ofNat 10 p.bits))
    | .decCmd => .ok (decodeDec (BitVec.ofNat 10 p.bits))
    | .romSym => .ok (.lutS2c (BitVec.ofNat 6 p.bits))
    | .romChr => .ok (.lutC2s (BitVec.ofNat 8 p.bits))
  else .error (.tooWide p.port)

/-- A command word from its fields, `last` most significant (30_encoding.md R70, R71). -/
def encodeCmd (last hasData : Bool) (data : Byte) : CmdWord :=
  BitVec.ofBool last ++ BitVec.ofBool hasData ++ data

/-- The word of an instruction on its port. An ignored `data` field is driven 0 (30_encoding.md R80; 70_reset_and_hazards.md
R269). -/
def encode : Instr → PortWord
  | .encNop => ⟨.encCmd, (encodeCmd false false 0).toNat⟩
  | .encPush b => ⟨.encCmd, (encodeCmd false true b).toNat⟩
  | .encFlush => ⟨.encCmd, (encodeCmd true false 0).toNat⟩
  | .encPushl b => ⟨.encCmd, (encodeCmd true true b).toNat⟩
  | .decNop => ⟨.decCmd, (encodeCmd false false 0).toNat⟩
  | .decPush c => ⟨.decCmd, (encodeCmd false true c).toNat⟩
  | .decEnd => ⟨.decCmd, (encodeCmd true false 0).toNat⟩
  | .decPushl c => ⟨.decCmd, (encodeCmd true true c).toNat⟩
  | .lutS2c v => ⟨.romSym, v.toNat⟩
  | .lutC2s c => ⟨.romChr, c.toNat⟩

/-- The port a bare word of the opcode table is taken to be on. A table word names no port, and the table gives the same
words to both command ports and to both ROM ports, so the first row in table order that the bits fit is taken: `enc_cmd`
before `dec_cmd`, the forward ROM before the inverse one (DESIGN CHOICE, notes/assumptions/12.md). -/
def tablePort (nbits w : Nat) : Port :=
  if nbits ≤ 6 then .romSym
  else if nbits ≤ 8 then (if w < 64 then .romSym else .romChr)
  else .encCmd

/-- The word of the opcode table with `nbits` bits `w`, on the port `tablePort` gives. -/
def tableWord (nbits w : Nat) : PortWord := ⟨tablePort nbits w, w⟩

/-- The instruction the decoder reads from a word of the opcode table (DESIGN CHOICE on the port,
notes/assumptions/12.md). -/
def decodeTableWord (nbits w : Nat) : Option Instr :=
  match decodeWord (tableWord nbits w) with
  | .ok i => some i
  | .error _ => none

end Sys2Proof
end

