-- ==== Sys2Proof/Machine/State.lean ====
section
/-! DEFINITION. The state: the ten registers of 10_state.md R20, the output ports' values in the last clock cycle
(30_encoding.md R74) and the host's inputs to come; why a step can stop; the state after reset (10_state.md R33). -/

namespace Sys2Proof.Machine

/-- The encoder's three registers, 18 bits (10_state.md R20 to R22). -/
structure EncRegs where
  /-- `enc.cnt`, leftover bytes buffered; legal 0, 1, 2 (R22). -/
  cnt : BitVec 2
  /-- `enc.b0`, first leftover byte (R21). -/
  b0 : Byte
  /-- `enc.b1`, second leftover byte (R21). -/
  b1 : Byte
deriving DecidableEq, Repr

/-- The decoder's seven registers, 24 bits (10_state.md R20, R23 to R26). -/
structure DecRegs where
  /-- `dec.pos`, characters accepted in this message modulo 4 (R24). -/
  pos : BitVec 2
  /-- `dec.s0`, the symbol at position 0 of the unfinished group (R23). -/
  s0 : Sym
  /-- `dec.s1`, the symbol at position 1 (R23). -/
  s1 : Sym
  /-- `dec.s2`, the symbol at position 2 (R23). -/
  s2 : Sym
  /-- `dec.pad2`, position 2 of the unfinished group held the padding character (R25). -/
  pad2 : Bool
  /-- `dec.closed`, a group with padding has been completed in this message (R25). -/
  closed : Bool
  /-- `dec.err`, the first latched error, `ok` for `NONE` (R26). -/
  err : Code
deriving DecidableEq, Repr

/-- The output ports of 30_encoding.md R74 with their values in the last clock cycle, and the read data of the two internal
ROM ports where that cycle read the ROM by itself. These are wires, not registers of the spec: no instruction reads them
(notes/assumptions/2.md, 5.md). -/
structure Pins where
  /-- `enc_cmd_ready`. -/
  encCmdReady : Bool
  /-- `enc_rsp_valid`. -/
  encRspValid : Bool
  /-- `enc_rsp`. -/
  encRsp : ErspWord
  /-- `dec_cmd_ready`. -/
  decCmdReady : Bool
  /-- `dec_rsp_valid`. -/
  decRspValid : Bool
  /-- `dec_rsp`. -/
  decRsp : DrspWord
  /-- The forward ROM's entry, after a bare `LUT.S2C`; absent when there was none. -/
  symData : Option Byte
  /-- The inverse ROM's entry `{cls, sym}` (30_encoding.md R84), after a bare `LUT.C2S`; absent when there was none. -/
  chrData : Option Byte
deriving DecidableEq, Repr

/-- One clock cycle of inputs: the input ports of 30_encoding.md R74, and an address on either internal ROM port where
the cycle reads the ROM by itself (notes/assumptions/5.md). Every input has a defined level
(70_reset_and_hazards.md R269). -/
structure Cycle where
  /-- `rst`. -/
  rst : Bool
  /-- `enc_cmd_valid`. -/
  encCmdValid : Bool
  /-- `enc_cmd`. -/
  encCmd : CmdWord
  /-- `enc_rsp_ready`. -/
  encRspReady : Bool
  /-- `dec_cmd_valid`. -/
  decCmdValid : Bool
  /-- `dec_cmd`. -/
  decCmd : CmdWord
  /-- `dec_rsp_ready`. -/
  decRspReady : Bool
  /-- An address read at the forward ROM port. -/
  symAddr : Option Sym
  /-- An address read at the inverse ROM port. -/
  chrAddr : Option Byte
deriving DecidableEq, Repr

/-- The state of the machine. -/
structure State where
  /-- The encoder's registers. -/
  enc : EncRegs
  /-- The decoder's registers. -/
  dec : DecRegs
  /-- The output ports in the last clock cycle. -/
  pins : Pins
  /-- The host's inputs to come, earliest cycle first. The environment's, not the hardware's: no instruction reads or
  writes it (notes/assumptions/1.md). -/
  pending : List Cycle
deriving DecidableEq, Repr

/-- Why the machine stops with a fault. The hardware has no trap and never stalls, hangs or refuses a command
(60_exceptions.md R220, R231, R233), its errors are status codes, and its two address spaces have no hole (20_memory.md
R56): there is no fault, and the type has no constructor. -/
inductive Fault where
deriving DecidableEq, Repr

/-- Why an instruction is given no meaning. -/
inductive Refusal where
  /-- An instruction without a meaning yet, refused in `exec`'s arm; no arm does so. Safe. -/
  | notModelled (mnemonic : String)
  /-- `ENC.PUSH`, `ENC.FLUSH` or `ENC.PUSHL` with `enc.cnt = 3`, a value "never reached from reset" (10_state.md R22) for
  which the rules give no case: "`enc.cnt = 3` cannot occur ...; a model may refuse it" (41_encoder.md R125), treatment
  `refuse` (93_implementation_defined.md X1). Raised by those three meanings; safe (notes/assumptions/6.md). -/
  | encCountUnreachable
deriving DecidableEq, Repr

/-- The encoder's reset values (10_state.md R33). -/
def EncRegs.reset : EncRegs := { cnt := 0, b0 := 0, b1 := 0 }

/-- The decoder's reset values (10_state.md R33). -/
def DecRegs.reset : DecRegs :=
  { pos := 0, s0 := 0, s1 := 0, s2 := 0, pad2 := false, closed := false, err := .ok }

/-- The output ports with nothing on them: ready and valid 0, "both response words are 0" (70_reset_and_hazards.md R260). -/
def Pins.idle : Pins :=
  { encCmdReady := false, encRspValid := false, encRsp := 0, decCmdReady := false, decRspValid := false, decRsp := 0,
    symData := none, chrData := none }

/-- A clock cycle in which every input is 0 and nothing is read: the host presents no command and takes no response
(notes/assumptions/4.md). -/
def Cycle.idle : Cycle :=
  { rst := false, encCmdValid := false, encCmd := 0, encRspReady := false, decCmdValid := false, decCmd := 0,
    decRspReady := false, symAddr := none, chrAddr := none }

/-- A clock cycle in which the host presents no command and is ready to take both responses. -/
def Cycle.ready : Cycle := { Cycle.idle with encRspReady := true, decRspReady := true }

/-- The state right after a reset edge: every register at its reset value (10_state.md R33, 70_reset_and_hazards.md R261),
the ports as in the cycle with `rst = 1` (R260), and no input yet. -/
def State.reset : State := { enc := EncRegs.reset, dec := DecRegs.reset, pins := Pins.idle, pending := [] }

end Sys2Proof.Machine
end

