-- ==== Sys2Proof/Machine/Rom.lean ====
section
/-! DEFINITION. `alphabet_lut`: the two read-only address spaces of the hardware and the reads of them (10_state.md R30;
20_memory.md R56, R57; 40_alphabet_lut.md R100 to R108). The contents are constants, not state. -/

namespace Sys2Proof.Machine

/-- The padding character '=' (40_alphabet_lut.md R104): a constant beside the forward ROM, no entry of it. -/
def PAD : Byte := 0x3D

/-- The forward ROM: 64 character codes, address = symbol (40_alphabet_lut.md R102). -/
def symRom : List Byte :=
  [0x41, 0x42, 0x43, 0x44, 0x45, 0x46, 0x47, 0x48, 0x49, 0x4A, 0x4B, 0x4C, 0x4D, 0x4E, 0x4F, 0x50] ++
  [0x51, 0x52, 0x53, 0x54, 0x55, 0x56, 0x57, 0x58, 0x59, 0x5A, 0x61, 0x62, 0x63, 0x64, 0x65, 0x66] ++
  [0x67, 0x68, 0x69, 0x6A, 0x6B, 0x6C, 0x6D, 0x6E, 0x6F, 0x70, 0x71, 0x72, 0x73, 0x74, 0x75, 0x76] ++
  [0x77, 0x78, 0x79, 0x7A, 0x30, 0x31, 0x32, 0x33, 0x34, 0x35, 0x36, 0x37, 0x38, 0x39, 0x2B, 0x2F]

/-- Rows 0_ to 7_ of the inverse ROM (40_alphabet_lut.md R106), one list per high nibble. -/
def chrRomLow : List Byte :=
  [0x00, 0x00, 0x00, 0x00, 0x00, 0x00, 0x00, 0x00, 0x00, 0x00, 0x00, 0x00, 0x00, 0x00, 0x00, 0x00] ++
  [0x00, 0x00, 0x00, 0x00, 0x00, 0x00, 0x00, 0x00, 0x00, 0x00, 0x00, 0x00, 0x00, 0x00, 0x00, 0x00] ++
  [0x00, 0x00, 0x00, 0x00, 0x00, 0x00, 0x00, 0x00, 0x00, 0x00, 0x00, 0x7E, 0x00, 0x00, 0x00, 0x7F] ++
  [0x74, 0x75, 0x76, 0x77, 0x78, 0x79, 0x7A, 0x7B, 0x7C, 0x7D, 0x00, 0x00, 0x00, 0x80, 0x00, 0x00] ++
  [0x00, 0x40, 0x41, 0x42, 0x43, 0x44, 0x45, 0x46, 0x47, 0x48, 0x49, 0x4A, 0x4B, 0x4C, 0x4D, 0x4E] ++
  [0x4F, 0x50, 0x51, 0x52, 0x53, 0x54, 0x55, 0x56, 0x57, 0x58, 0x59, 0x00, 0x00, 0x00, 0x00, 0x00] ++
  [0x00, 0x5A, 0x5B, 0x5C, 0x5D, 0x5E, 0x5F, 0x60, 0x61, 0x62, 0x63, 0x64, 0x65, 0x66, 0x67, 0x68] ++
  [0x69, 0x6A, 0x6B, 0x6C, 0x6D, 0x6E, 0x6F, 0x70, 0x71, 0x72, 0x73, 0x00, 0x00, 0x00, 0x00, 0x00]

/-- The inverse ROM: 256 entries `{cls[1:0], sym[5:0]}`, address = character code (40_alphabet_lut.md R106). Rows 8_ to F_
"are all `00`". -/
def chrRom : List Byte := chrRomLow ++ List.replicate 128 0x00

/-- `MemRead_sym(v, 1)` (20_memory.md R56): every address is populated. -/
def memReadSym (v : Sym) : Byte := symRom.getD v.toNat 0

/-- `MemRead_chr(c, 1)` (20_memory.md R56): every address is populated. -/
def memReadChr (c : Byte) : Byte := chrRom.getD c.toNat 0

/-- The class an inverse ROM entry holds in its bits 7 and 6 (30_encoding.md R84). The value 3 is "never stored"; it is
read as `INV` (notes/assumptions/8.md). -/
def entryClass (e : Byte) : CharClass :=
  if e.extractLsb' 6 2 = 1 then .sym else if e.extractLsb' 6 2 = 2 then .pad else .inv

/-- The symbol an inverse ROM entry holds in its bits 5 to 0 (30_encoding.md R84). -/
def entrySym (e : Byte) : Sym := e.extractLsb' 0 6

/-- `S2C(v)`, "symbolToChar": the forward ROM read (40_alphabet_lut.md R103). -/
def S2C (v : Sym) : Byte := memReadSym v

/-- `C2S(c)`, "charToSymbol" made total: the inverse ROM read as a pair (40_alphabet_lut.md R105). -/
def C2S (c : Byte) : CharClass × Sym := (entryClass (memReadChr c), entrySym (memReadChr c))

/-- `code(v)`, the closed form of the forward ROM (40_alphabet_lut.md R102). -/
def codeOf (v : Sym) : Byte :=
  if v.toNat ≤ 25 then BitVec.ofNat 8 (0x41 + v.toNat)
  else if v.toNat ≤ 51 then BitVec.ofNat 8 (0x61 + (v.toNat - 26))
  else if v.toNat ≤ 61 then BitVec.ofNat 8 (0x30 + (v.toNat - 52))
  else if v.toNat = 62 then 0x2B
  else 0x2F

/-- The closed form of the inverse ROM (40_alphabet_lut.md R105). -/
def classify (c : Byte) : CharClass × Sym :=
  if 0x41 ≤ c.toNat ∧ c.toNat ≤ 0x5A then (.sym, BitVec.ofNat 6 (c.toNat - 0x41))
  else if 0x61 ≤ c.toNat ∧ c.toNat ≤ 0x7A then (.sym, BitVec.ofNat 6 (c.toNat - 0x61 + 26))
  else if 0x30 ≤ c.toNat ∧ c.toNat ≤ 0x39 then (.sym, BitVec.ofNat 6 (c.toNat - 0x30 + 52))
  else if c = 0x2B then (.sym, 62)
  else if c = 0x2F then (.sym, 63)
  else if c = 0x3D then (.pad, 0)
  else (.inv, 0)

end Sys2Proof.Machine
end

