-- ==== Sys2Proof/Machine/Operands.lean ====
section
/-! DEFINITION. Regrouping bits between bytes and symbols (41_encoder.md R121 to R123, 42_decoder.md R151; most significant
bit first, 20_memory.md R50), and packing a response record in its word and reading it back (30_encoding.md R76, R78, R80;
lane order 20_memory.md R52). -/

namespace Sys2Proof.Machine

/-- `s0 = (b0 >> 2) & 0x3F` (41_encoder.md R121). -/
def symTop (b0 : Byte) : Sym := ((b0 >>> 2) &&& 0x3F).setWidth 6

/-- `s1 = ((b0 & 0x03) << 4) | ((b1 >> 4) & 0x0F)` (41_encoder.md R121). -/
def symSecond (b0 b1 : Byte) : Sym := (((b0 &&& 0x03) <<< 4) ||| ((b1 >>> 4) &&& 0x0F)).setWidth 6

/-- `s2 = ((b1 & 0x0F) << 2) | ((b2 >> 6) & 0x03)` (41_encoder.md R121). -/
def symThird (b1 b2 : Byte) : Sym := (((b1 &&& 0x0F) <<< 2) ||| ((b2 >>> 6) &&& 0x03)).setWidth 6

/-- `s3 = b2 & 0x3F` (41_encoder.md R121). -/
def symLow (b2 : Byte) : Sym := (b2 &&& 0x3F).setWidth 6

/-- `SYMS3`, a full group: three bytes to four symbols (41_encoder.md R121). -/
def syms3 (b0 b1 b2 : Byte) : Sym × Sym × Sym × Sym := (symTop b0, symSecond b0 b1, symThird b1 b2, symLow b2)

/-- `TAIL2`, a tail of two bytes: `s2 = (b1 & 0x0F) << 2` (41_encoder.md R122). -/
def tail2 (b0 b1 : Byte) : Sym × Sym × Sym := (symTop b0, symSecond b0 b1, ((b1 &&& 0x0F) <<< 2).setWidth 6)

/-- `TAIL1`, a tail of one byte: `s1 = (b0 & 0x03) << 4` (41_encoder.md R123). -/
def tail1 (b0 : Byte) : Sym × Sym := (symTop b0, ((b0 &&& 0x03) <<< 4).setWidth 6)

/-- The four characters of a full group (41_encoder.md R125). -/
def charsFull (b0 b1 b2 : Byte) : List Byte :=
  match syms3 b0 b1 b2 with
  | (s0, s1, s2, s3) => [S2C s0, S2C s1, S2C s2, S2C s3]

/-- The four characters of a tail of two bytes, one of them padding (41_encoder.md R126). -/
def charsTail2 (b0 b1 : Byte) : List Byte :=
  match tail2 b0 b1 with
  | (s0, s1, s2) => [S2C s0, S2C s1, S2C s2, PAD]

/-- The four characters of a tail of one byte, two of them padding (41_encoder.md R126). -/
def charsTail1 (b0 : Byte) : List Byte :=
  match tail1 b0 with
  | (s0, s1) => [S2C s0, S2C s1, PAD, PAD]

/-- `b0 = (s0 << 2) | (s1 >> 4)` (42_decoder.md R151). -/
def byteFirst (s0 s1 : Sym) : Byte := (s0.setWidth 8 <<< 2) ||| (s1.setWidth 8 >>> 4)

/-- `b1 = ((s1 & 0x0F) << 4) | (s2 >> 2)` (42_decoder.md R151). -/
def byteSecond (s1 s2 : Sym) : Byte := ((s1.setWidth 8 &&& 0x0F) <<< 4) ||| (s2.setWidth 8 >>> 2)

/-- `b2 = ((s2 & 0x03) << 6) | s3` (42_decoder.md R151). -/
def byteThird (s2 s3 : Sym) : Byte := ((s2.setWidth 8 &&& 0x03) <<< 6) ||| s3.setWidth 8

/-- `BYTES3`, a group with no padding (42_decoder.md R151). -/
def bytes3 (s0 s1 s2 s3 : Sym) : List Byte := [byteFirst s0 s1, byteSecond s1 s2, byteThird s2 s3]

/-- `BYTES2`, a group with one padding character; bits 1 and 0 of `s2` are not used (42_decoder.md R151, R158). -/
def bytes2 (s0 s1 s2 : Sym) : List Byte := [byteFirst s0 s1, byteSecond s1 s2]

/-- `BYTES1`, a group with two padding characters; bits 3 to 0 of `s1` are not used (42_decoder.md R151, R158). -/
def bytes1 (s0 s1 : Sym) : List Byte := [byteFirst s0 s1]

end Sys2Proof.Machine

namespace Sys2Proof

/-- A response beat is presented only for a record with an element or with `last = 1` (30_encoding.md R75, `nonnull`). -/
def EncRecord.nonnull (r : EncRecord) : Bool := !r.chars.isEmpty || r.last

/-- A response beat is presented only for a record with an element or with `last = 1` (30_encoding.md R75, `nonnull`). -/
def DecRecord.nonnull (r : DecRecord) : Bool := !r.bytes.isEmpty || r.last

/-- `ERSP` from its fields: `last`, `has_chars`, then lanes 3 to 0 (30_encoding.md R76). -/
def erspWord (last hasChars : Bool) (c0 c1 c2 c3 : Byte) : ErspWord :=
  BitVec.ofBool last ++ BitVec.ofBool hasChars ++ c3 ++ c2 ++ c1 ++ c0

/-- `pack(R)` of an encoder record: 4 characters in order, or none (30_encoding.md R76). No command responds with another
number of characters (20_memory.md R54); such a list is packed as none (notes/assumptions/13.md). -/
def EncRecord.pack (r : EncRecord) : ErspWord :=
  match r.chars with
  | [c0, c1, c2, c3] => erspWord r.last true c0 c1 c2 c3
  | _ => erspWord r.last false 0 0 0 0

/-- `DRSP` from its fields: `status`, `last`, `nbytes`, then lanes 2 to 0 (30_encoding.md R78). -/
def drspWord (status : Code) (last : Bool) (nbytes : BitVec 2) (b0 b1 b2 : Byte) : DrspWord :=
  status.bits ++ BitVec.ofBool last ++ nbytes ++ b2 ++ b1 ++ b0

/-- `pack(R)` of a decoder record: its bytes in order, the other lanes 0 (30_encoding.md R78). No command responds with more
than 3 bytes (20_memory.md R54); such a list is packed as none (notes/assumptions/13.md). -/
def DecRecord.pack (r : DecRecord) : DrspWord :=
  match r.bytes with
  | [] => drspWord r.status r.last 0 0 0 0
  | [b0] => drspWord r.status r.last 1 b0 0 0
  | [b0, b1] => drspWord r.status r.last 2 b0 b1 0
  | [b0, b1, b2] => drspWord r.status r.last 3 b0 b1 b2
  | _ => drspWord r.status r.last 0 0 0 0

end Sys2Proof

namespace Sys2Proof.Machine

/-- The record an encoder response word carries. A word with `has_chars = 0` and `chars` not 0 is refused: "The hardware
never produces them; a model's decoder of response words may refuse them" (30_encoding.md R80). -/
def unpackErsp (w : ErspWord) : Option EncRecord :=
  if w[32] then
    some { chars := [w.extractLsb' 0 8, w.extractLsb' 8 8, w.extractLsb' 16 8, w.extractLsb' 24 8], last := w[33] }
  else if w.extractLsb' 0 32 = 0 then some { chars := [], last := w[33] }
  else none

/-- Field `status` of `DRSP` (30_encoding.md R78). -/
def drspStatus (w : DrspWord) : Code := Code.ofBits (w.extractLsb' 27 2)

/-- Field `nbytes` of `DRSP` (30_encoding.md R78). -/
def drspCount (w : DrspWord) : BitVec 2 := w.extractLsb' 24 2

/-- The bytes a decoder response word carries: lanes 0 to `nbytes - 1` (30_encoding.md R78). -/
def drspBytes (w : DrspWord) : List Byte :=
  [w.extractLsb' 0 8, w.extractLsb' 8 8, w.extractLsb' 16 8].take (drspCount w).toNat

/-- The record a decoder response word carries. The words the hardware never produces are refused (30_encoding.md R80): a
lane at or above `nbytes` that is not 0, a status with `last = 0`, a status other than `OK` with a byte. -/
def unpackDrsp (w : DrspWord) : Option DecRecord :=
  if ((DecRecord.mk (drspBytes w) w[26] (drspStatus w)).wellFormed
      && (DecRecord.mk (drspBytes w) w[26] (drspStatus w)).pack == w) then
    some { bytes := drspBytes w, last := w[26], status := drspStatus w }
  else none

end Sys2Proof.Machine
end

