-- ==== Sys2Proof/Machine/Flags.lean ====
section
/-! DEFINITION. The decoder's flags `dec.pad2` and `dec.closed`, the status register `dec.err` and the status a message ends
with (10_state.md R25, R26; 60_exceptions.md R221 to R229). The encoder has no flag, and no command sets a condition code
(10_state.md R25). -/

namespace Sys2Proof.Machine

/-- A symbol here follows padding: `dec.closed = 1 or dec.pad2 = 1` (42_decoder.md R153 arm (c)). -/
def DecRegs.afterPadding (d : DecRegs) : Bool := d.closed || d.pad2

/-- Padding may not stand here: `dec.closed = 1 or p < 2` (42_decoder.md R153 arm (e)). -/
def DecRegs.padMisplaced (d : DecRegs) : Bool := d.closed || d.pos.ult 2

/-- The status of a message that ends now: `MalformedLength` when the number of characters is not a multiple of 4, else the
latched error, `NONE` read as `OK` (42_decoder.md R156, R157; 60_exceptions.md R225, R226 point 1). In the unreachable
`dec.err = 2` with `dec.pos = 0` the register's own code is reported (DEDUCED, notes/assumptions/7.md). -/
def DecRegs.endStatus (d : DecRegs) : Code := if d.pos = 0 then d.err else .malformedLength

end Sys2Proof.Machine
end

