-- ==== Sys2Proof/Machine/Ops.lean ====
section
/-! DEFINITION. The named operations on the state: writing a unit's registers, responding, latching an error and ending a
message, and the decoder's character step, shared by `DEC.PUSH` and `DEC.PUSHL`. -/

namespace Sys2Proof.Machine

/-- The encoder's registers written, all together (00_scope.md R8). -/
def State.setEnc (s : State) (e : EncRegs) : State := { s with enc := e }

/-- The decoder's registers written, all together (00_scope.md R8). -/
def State.setDec (s : State) (d : DecRegs) : State := { s with dec := d }

/-- `respond(chars, last)`: `enc_rsp_valid` is `nonnull`, and `enc_rsp` is `pack(R)` where valid, else 0
(30_encoding.md R75). -/
def State.respondEnc (s : State) (r : EncRecord) : State :=
  { s with pins := { s.pins with encRspValid := r.nonnull, encRsp := if r.nonnull then r.pack else 0 } }

/-- `respond(bytes, last, status)`: `dec_rsp_valid` is `nonnull`, and `dec_rsp` is `pack(R)` where valid, else 0
(30_encoding.md R75). -/
def State.respondDec (s : State) (r : DecRecord) : State :=
  { s with pins := { s.pins with decRspValid := r.nonnull, decRsp := if r.nonnull then r.pack else 0 } }

/-- The forward ROM port shows an entry (notes/assumptions/5.md). -/
def State.showSym (s : State) (e : Byte) : State := { s with pins := { s.pins with symData := some e } }

/-- The inverse ROM port shows an entry (notes/assumptions/5.md). -/
def State.showChr (s : State) (e : Byte) : State := { s with pins := { s.pins with chrData := some e } }

/-- One more character is counted: `dec.pos <- (p + 1) mod 4`, always (10_state.md R24). -/
def DecRegs.advance (d : DecRegs) : DecRegs := { d with pos := d.pos + 1 }

/-- RAISING AN ERROR, the entry: `dec.err <- kind`, and "no other register changes" (60_exceptions.md R224). The character is
counted by `DecRegs.advance`. -/
def DecRegs.raise (d : DecRegs) (k : Code) : DecRegs := { d with err := k }

/-- THE CLEAR, the return: the message ends, its status is given, and every register takes its reset value
(60_exceptions.md R229, 42_decoder.md R156). -/
def DecRegs.endMessage (d : DecRegs) : DecRegs × Code := (DecRegs.reset, d.endStatus)

/-- A group is complete: the symbols are cleared, and with padding in it the message is closed (42_decoder.md R153 arms (d),
(g), (h)). -/
def DecRegs.completeGroup (d : DecRegs) (padded : Bool) : DecRegs :=
  if padded then { d with s0 := 0, s1 := 0, s2 := 0, pad2 := false, closed := true }
  else { d with s0 := 0, s1 := 0, s2 := 0 }

/-- A symbol accepted without error: stored at its position, or completing a full group (42_decoder.md R153 arm (d) and the
stores before it). `d` holds the position before the step. -/
def DecRegs.acceptSym (d : DecRegs) (v : Sym) : DecRegs × List Byte :=
  if d.pos = 0 then ({ d.advance with s0 := v }, [])
  else if d.pos = 1 then ({ d.advance with s1 := v }, [])
  else if d.pos = 2 then ({ d.advance with s2 := v }, [])
  else (d.advance.completeGroup false, bytes3 d.s0 d.s1 d.s2 v)

/-- A padding character accepted without error, at position 2 or 3 (42_decoder.md R153 arms (f), (g), (h)). -/
def DecRegs.acceptPad (d : DecRegs) : DecRegs × List Byte :=
  if d.pos = 2 then ({ d.advance with pad2 := true }, [])
  else if d.pad2 then (d.advance.completeGroup true, bytes1 d.s0 d.s1)
  else (d.advance.completeGroup true, bytes2 d.s0 d.s1 d.s2)

/-- `DEC_CHAR(c)`, the character step: the registers after it and the bytes it emits (42_decoder.md R153, R152). -/
def DecRegs.char (d : DecRegs) (c : Byte) : DecRegs × List Byte :=
  if d.err ≠ .ok then (d.advance, [])
  else
    match C2S c with
    | (.inv, _) => (d.advance.raise .invalidSymbol, [])
    | (.sym, v) => if d.afterPadding then (d.advance.raise .malformedPadding, []) else d.acceptSym v
    | (.pad, _) => if d.padMisplaced then (d.advance.raise .malformedPadding, []) else d.acceptPad

/-- The next state of an outcome, absent where it stopped. -/
def nextState? (o : Host.Outcome State Fault Refusal) : Option State :=
  match o with
  | .next s => some s
  | .fault _ => none
  | .refused _ => none

/-- One outcome after another: the second runs in the first's next state. -/
def andThen (o : Host.Outcome State Fault Refusal) (f : State → Host.Outcome State Fault Refusal) :
    Host.Outcome State Fault Refusal :=
  match o with
  | .next s => f s
  | .fault e => .fault e
  | .refused r => .refused r

end Sys2Proof.Machine
end

