-- ==== Sys2Proof/Machine/Decoder.lean ====
section
/-! DEFINITION. The four decoder commands (42_decoder.md R154 to R157). -/

namespace Sys2Proof.Machine

/-- `DEC.NOP` (42_decoder.md R154): no register is written, no beat, not counted as a character. -/
def execDecNop (s : State) : Host.Outcome State Fault Refusal :=
  .next (s.respondDec { bytes := [], last := false, status := .ok })

/-- `DEC.PUSH c` (42_decoder.md R155): the character step; the status of the response is 0 always. -/
def execDecPush (c : Byte) (s : State) : Host.Outcome State Fault Refusal :=
  match s.dec.char c with
  | (d, out) => .next ((s.setDec d).respondDec { bytes := out, last := false, status := .ok })

/-- `DEC.END` (42_decoder.md R156): the end step. -/
def execDecEnd (s : State) : Host.Outcome State Fault Refusal :=
  match s.dec.endMessage with
  | (d, st) => .next ((s.setDec d).respondDec { bytes := [], last := true, status := st })

/-- `DEC.PUSHL c` (42_decoder.md R157): the character step, then the end step in the state it leaves. -/
def execDecPushl (c : Byte) (s : State) : Host.Outcome State Fault Refusal :=
  match s.dec.char c with
  | (d, out) =>
    match d.endMessage with
    | (d', st) => .next ((s.setDec d').respondDec { bytes := out, last := true, status := st })

end Sys2Proof.Machine
end

