-- ==== Sys2Proof/Machine/Encoder.lean ====
section
/-! DEFINITION. The four encoder commands (41_encoder.md R124 to R127). The registers read are those before the command. -/

namespace Sys2Proof.Machine

/-- `ENC.NOP` (41_encoder.md R124): no register is written, no beat. -/
def execEncNop (s : State) : Host.Outcome State Fault Refusal :=
  .next (s.respondEnc { chars := [], last := false })

/-- `ENC.PUSH b` (41_encoder.md R125). -/
def execEncPush (b : Byte) (s : State) : Host.Outcome State Fault Refusal :=
  if s.enc.cnt = 0 then
    .next ((s.setEnc { s.enc with b0 := b, cnt := 1 }).respondEnc { chars := [], last := false })
  else if s.enc.cnt = 1 then
    .next ((s.setEnc { s.enc with b1 := b, cnt := 2 }).respondEnc { chars := [], last := false })
  else if s.enc.cnt = 2 then
    .next ((s.setEnc { s.enc with b0 := 0, b1 := 0, cnt := 0 }).respondEnc
      { chars := charsFull s.enc.b0 s.enc.b1 b, last := false })
  else .refused .encCountUnreachable

/-- `ENC.FLUSH` (41_encoder.md R126). -/
def execEncFlush (s : State) : Host.Outcome State Fault Refusal :=
  if s.enc.cnt = 0 then
    .next ((s.setEnc { s.enc with b0 := 0, b1 := 0, cnt := 0 }).respondEnc { chars := [], last := true })
  else if s.enc.cnt = 1 then
    .next ((s.setEnc { s.enc with b0 := 0, b1 := 0, cnt := 0 }).respondEnc
      { chars := charsTail1 s.enc.b0, last := true })
  else if s.enc.cnt = 2 then
    .next ((s.setEnc { s.enc with b0 := 0, b1 := 0, cnt := 0 }).respondEnc
      { chars := charsTail2 s.enc.b0 s.enc.b1, last := true })
  else .refused .encCountUnreachable

/-- `ENC.PUSHL b` (41_encoder.md R127). -/
def execEncPushl (b : Byte) (s : State) : Host.Outcome State Fault Refusal :=
  if s.enc.cnt = 0 then
    .next ((s.setEnc { s.enc with b0 := 0, b1 := 0, cnt := 0 }).respondEnc { chars := charsTail1 b, last := true })
  else if s.enc.cnt = 1 then
    .next ((s.setEnc { s.enc with b0 := 0, b1 := 0, cnt := 0 }).respondEnc
      { chars := charsTail2 s.enc.b0 b, last := true })
  else if s.enc.cnt = 2 then
    .next ((s.setEnc { s.enc with b0 := 0, b1 := 0, cnt := 0 }).respondEnc
      { chars := charsFull s.enc.b0 s.enc.b1 b, last := true })
  else .refused .encCountUnreachable

end Sys2Proof.Machine
end

