-- ==== Sys2Proof/Machine/Lut.lean ====
section
/-! DEFINITION. The two ROM reads (40_alphabet_lut.md R103, R105). "Flags written: none. State written: none": no register
of either unit changes; the entry is shown at the ROM port (notes/assumptions/5.md). -/

namespace Sys2Proof.Machine

/-- `LUT.S2C v` (40_alphabet_lut.md R103). -/
def execLutS2c (v : Sym) (s : State) : Host.Outcome State Fault Refusal := .next (s.showSym (memReadSym v))

/-- `LUT.C2S c` (40_alphabet_lut.md R105): the entry holds the class and the symbol (30_encoding.md R84). -/
def execLutC2s (c : Byte) (s : State) : Host.Outcome State Fault Refusal := .next (s.showChr (memReadChr c))

end Sys2Proof.Machine
end

