-- ==== Sys2Proof/Machine/Dispatch.lean ====
section
/-! DEFINITION. The one dispatch from instructions to their meanings (30_encoding.md R85). -/

namespace Sys2Proof.Machine

/-- The effect of one instruction, whole and atomic (20_memory.md R55). -/
def exec (i : Instr) (s : State) : Host.Outcome State Fault Refusal :=
  match i with
  | .encNop => Sys2Proof.Machine.execEncNop s
  | .encPush b => Sys2Proof.Machine.execEncPush b s
  | .encFlush => Sys2Proof.Machine.execEncFlush s
  | .encPushl b => Sys2Proof.Machine.execEncPushl b s
  | .decNop => Sys2Proof.Machine.execDecNop s
  | .decPush c => Sys2Proof.Machine.execDecPush c s
  | .decEnd => Sys2Proof.Machine.execDecEnd s
  | .decPushl c => Sys2Proof.Machine.execDecPushl c s
  | .lutS2c v => Sys2Proof.Machine.execLutS2c v s
  | .lutC2s c => Sys2Proof.Machine.execLutC2s c s

end Sys2Proof.Machine
end

