-- ==== Sys2Proof/Machine/Clock.lean ====
section
/-! DEFINITION. One clock cycle: the handshake of 30_encoding.md R75 and the reset of 70_reset_and_hazards.md R260, around
`exec`. -/

namespace Sys2Proof.Machine

/-- The ports at the start of a cycle: `u_cmd_ready = u_rsp_ready and not rst`, no response yet (30_encoding.md R75). -/
def State.beginCycle (s : State) (c : Cycle) : State :=
  { s with pins := { Pins.idle with
      encCmdReady := c.encRspReady && !c.rst
      decCmdReady := c.decRspReady && !c.rst } }

/-- The command presented to the encoder: `enc_cmd_valid` and not `rst` (30_encoding.md R74, R75). -/
def Cycle.encPresented (c : Cycle) : Option Instr :=
  if c.encCmdValid && !c.rst then some (decodeEnc c.encCmd) else none

/-- The command presented to the decoder: `dec_cmd_valid` and not `rst` (30_encoding.md R74, R75). -/
def Cycle.decPresented (c : Cycle) : Option Instr :=
  if c.decCmdValid && !c.rst then some (decodeDec c.decCmd) else none

/-- The bare read of the forward ROM, if the cycle makes one. The ROM is "not affected by `rst`" (40_alphabet_lut.md
R100). -/
def Cycle.symRead (c : Cycle) : Option Instr := c.symAddr.map Instr.lutS2c

/-- The bare read of the inverse ROM, if the cycle makes one. -/
def Cycle.chrRead (c : Cycle) : Option Instr := c.chrAddr.map Instr.lutC2s

/-- A command presented to a unit. Where the unit is ready it fires: the response is shown and the registers are written.
Where it is not, the response is shown all the same, since `u_rsp_valid` does not read `u_rsp_ready`, and the registers
are unchanged (30_encoding.md R75; 70_reset_and_hazards.md R268; notes/assumptions/10.md). -/
def present (i : Option Instr) (ready : Bool) (s : State) : Host.Outcome State Fault Refusal :=
  match i with
  | none => .next s
  | some i => andThen (exec i s) fun t => .next (if ready then t else { s with pins := t.pins })

/-- The reset edge: with `rst = 1` every register of both units takes its reset value (70_reset_and_hazards.md R260). -/
def State.resetEdge (s : State) (rst : Bool) : State :=
  if rst then { s with enc := EncRegs.reset, dec := DecRegs.reset } else s

/-- One clock cycle with the inputs `c`: both units, then the bare ROM reads, then the reset edge. The order of the two units
does not matter (20_memory.md R59; notes/assumptions/3.md). -/
def clock (c : Cycle) (s : State) : Host.Outcome State Fault Refusal :=
  andThen (present c.encPresented c.encRspReady (s.beginCycle c)) fun s1 =>
  andThen (present c.decPresented c.decRspReady s1) fun s2 =>
  andThen (present c.symRead true s2) fun s3 =>
  andThen (present c.chrRead true s3) fun s4 =>
  .next (s4.resetEdge c.rst)

/-- The inputs of the next clock cycle, and the state without them. With no input to come the cycle is idle
(notes/assumptions/4.md). -/
def State.takeCycle (s : State) : Cycle × State :=
  match s.pending with
  | [] => (Cycle.idle, s)
  | c :: cs => (c, { s with pending := cs })

/-- The cycle that presents a word on its port with the response side ready, and nothing else. A word that does not fit its
port is not presented. -/
def cycleOf (p : PortWord) : Cycle :=
  if p.wellFormed then
    match p.port with
    | .encCmd => { Cycle.ready with encCmdValid := true, encCmd := BitVec.ofNat 10 p.bits }
    | .decCmd => { Cycle.ready with decCmdValid := true, decCmd := BitVec.ofNat 10 p.bits }
    | .romSym => { Cycle.ready with symAddr := some (BitVec.ofNat 6 p.bits) }
    | .romChr => { Cycle.ready with chrAddr := some (BitVec.ofNat 8 p.bits) }
  else Cycle.ready

end Sys2Proof.Machine
end

