-- ==== Sys2Proof/Machine/Step.lean ====
section
/-! DEFINITION. One step of the machine is one clock cycle with the host's next inputs (30_encoding.md R75). -/

namespace Sys2Proof.Machine

/-- One clock cycle with the next inputs. -/
def step (s : State) : Host.Outcome State Fault Refusal :=
  match s.takeCycle with
  | (c, t) => clock c t

/-- The state in which the very next step presents a word of the opcode table, on the port `tablePort` gives
(notes/assumptions/12.md). The hardware fetches nothing (10_state.md R27): the host presents the word, and this puts the
presentation before the inputs to come (notes/assumptions/15.md). -/
def State.withFetchWord (s : State) (nbits w : Nat) : State :=
  { s with pending := cycleOf (tableWord nbits w) :: s.pending }

end Sys2Proof.Machine
end

