-- ==== Sys2Proof/Machine/Message.lean ====
section
/-! DEFINITION. The message level: the reference functions `encode` and `decode` (43_message_contract.md R190, R191), the
pseudo-commands (30_encoding.md R83), and how a message is run on the machine and its output read
(70_reset_and_hazards.md R276). -/

namespace Sys2Proof.Machine

/-- `encode(B)`, group by group of 3 bytes, the tail padded (43_message_contract.md R190). -/
def encodeBytes : List Byte → List Byte
  | [] => []
  | [b0] => charsTail1 b0
  | [b0, b1] => charsTail2 b0 b1
  | b0 :: b1 :: b2 :: rest => charsFull b0 b1 b2 ++ encodeBytes rest

/-- `exists j < k with cls(j) = PAD` (43_message_contract.md R191 step 2). -/
def padBefore (S : List Byte) (k : Nat) : Bool := (S.take k).any fun c => (C2S c).1 == .pad

/-- What step 2 of `decode` finds wrong at index `i`, if anything (43_message_contract.md R191). -/
def violationAt (S : List Byte) (i : Nat) : Option Code :=
  match (C2S (S.getD i 0)).1 with
  | .inv => some .invalidSymbol
  | .sym => if padBefore S i then some .malformedPadding else none
  | .pad => if i % 4 < 2 || padBefore S (4 * (i / 4)) then some .malformedPadding else none

/-- The first violation of step 2 in index order, with its index (43_message_contract.md R191). -/
def firstViolation (S : List Byte) : Option (Nat × Code) :=
  (List.range S.length).findSome? fun i => (violationAt S i).map fun k => (i, k)

/-- Step 3 of `decode`: each whole group of 4 characters gives 3, 2 or 1 bytes (43_message_contract.md R191). -/
def groupBytes : List Byte → List Byte
  | c0 :: c1 :: c2 :: c3 :: rest =>
    (if (C2S c3).1 = .sym then bytes3 (C2S c0).2 (C2S c1).2 (C2S c2).2 (C2S c3).2
     else if (C2S c2).1 = .sym then bytes2 (C2S c0).2 (C2S c1).2 (C2S c2).2
     else bytes1 (C2S c0).2 (C2S c1).2) ++ groupBytes rest
  | _ => []

/-- `decode(S)`: length, then alphabet and padding structure, then the groups (43_message_contract.md R191). -/
def decodeText (S : List Byte) : Except Code (List Byte) :=
  if S.length % 4 ≠ 0 then .error .malformedLength
  else
    match firstViolation S with
    | some (_, k) => .error k
    | none => .ok (groupBytes S)

/-- The status the hardware reports for a result of `decode` (30_encoding.md R79, 43_message_contract.md R193). -/
def statusOf (r : Except Code (List Byte)) : Code :=
  match r with
  | .ok _ => .ok
  | .error k => k

/-- The whole groups completed before the first violation: the prefix of length `4 * (m / 4)`, `m` the index of the first
violation of step 2 without step 1, or the length if there is none (43_message_contract.md R193). -/
def wholeGroups (S : List Byte) : List Byte :=
  match firstViolation S with
  | some (m, _) => S.take (4 * (m / 4))
  | none => S.take (4 * (S.length / 4))

/-- `ENC.MSG B` (30_encoding.md R83). -/
def encMsg (B : List Byte) : List Instr := B.map Instr.encPush ++ [.encFlush]

/-- `ENC.MSGL B`, the last byte `x` carrying the end mark (30_encoding.md R83). -/
def encMsgl (B : List Byte) (x : Byte) : List Instr := B.map Instr.encPush ++ [.encPushl x]

/-- `DEC.MSG S` (30_encoding.md R83). -/
def decMsg (S : List Byte) : List Instr := S.map Instr.decPush ++ [.decEnd]

/-- `DEC.MSGL S`, the last character `x` carrying the end mark (30_encoding.md R83). -/
def decMsgl (S : List Byte) (x : Byte) : List Instr := S.map Instr.decPush ++ [.decPushl x]

/-- An instruction that is no `NOP`. -/
def notNop (i : Instr) : Bool := i != .encNop && i != .decNop

/-- The states after each of a list of commands, each issued in a cycle of its own with the response side ready; absent
where one of them stops. The untimed model: "one step per fired command" (30_encoding.md R75). -/
def runCommands : List Instr → State → Option (List State)
  | [], _ => some []
  | i :: is, s =>
    match exec i (s.beginCycle Cycle.ready) with
    | .next t => (runCommands is t).map (t :: ·)
    | .fault _ => none
    | .refused _ => none

/-- The states after each of a number of clock cycles; absent where one of them stops. -/
def runCycles : Nat → State → Option (List State)
  | 0, _ => some []
  | n + 1, s =>
    match step s with
    | .next t => (runCycles n t).map (t :: ·)
    | .fault _ => none
    | .refused _ => none

/-- The encoder beat the host took in the last cycle: "taken by the host exactly in the cycles where `fire` holds and
`nonnull` holds" (30_encoding.md R75). -/
def encTaken (s : State) : Option EncRecord :=
  if s.pins.encCmdReady && s.pins.encRspValid then unpackErsp s.pins.encRsp else none

/-- The decoder beat the host took in the last cycle (30_encoding.md R75). -/
def decTaken (s : State) : Option DecRecord :=
  if s.pins.decCmdReady && s.pins.decRspValid then unpackDrsp s.pins.decRsp else none

/-- The encoder beats taken over a run, in order. -/
def encBeats (ts : List State) : List EncRecord := ts.filterMap encTaken

/-- The decoder beats taken over a run, in order. -/
def decBeats (ts : List State) : List DecRecord := ts.filterMap decTaken

/-- The characters of the encoder beats taken over a run, whether or not a message has ended: no message's output in the sense
of 70_reset_and_hazards.md R276, which `encMessages` gives. -/
def encEmitted (ts : List State) : List Byte := (encBeats ts).flatMap (·.chars)

/-- What one clock cycle is to the messages of a unit, `R` being what the cycle may carry for it: a response beat, seen from the
output, or a fired command, seen from the input. -/
inductive Event (R : Type) where
  /-- The cycle carries nothing for the unit. -/
  | quiet
  /-- A response beat is taken, or a command fires. -/
  | item (r : R)
  /-- A reset edge: it abandons the message (70_reset_and_hazards.md R262). -/
  | reset
deriving DecidableEq, Repr

/-- The messages that end in a run that begins after a reset or between messages, in order, each as its items before the last one
and the one with `last = 1`: "all responses since the previous `last = 1` (or since reset) up to and including this one"
(70_reset_and_hazards.md R276). Items never followed by one with `last = 1` belong to no message. `acc` is the unfinished
message so far. -/
def endedFrom {R : Type} (last : R → Bool) : List R → List (Event R) → List (List R × R)
  | _, [] => []
  | acc, .quiet :: es => endedFrom last acc es
  | acc, .item r :: es => if last r then (acc, r) :: endedFrom last [] es else endedFrom last (acc ++ [r]) es
  | _, .reset :: es => endedFrom last [] es

/-- The outputs of the encoder messages that end in a run (70_reset_and_hazards.md R276). -/
def encMessages (es : List (Event EncRecord)) : List (List Byte) :=
  (endedFrom (·.last) [] es).map fun m => (m.1 ++ [m.2]).flatMap (·.chars)

/-- A decoder message that has ended: its output and its verdict (70_reset_and_hazards.md R276). -/
structure DecMessage where
  output : List Byte
  verdict : Code
deriving DecidableEq, Repr

/-- The decoder messages that end in a run: the concatenated bytes, and as the verdict "this response's `status`"
(70_reset_and_hazards.md R276). -/
def decMessages (es : List (Event DecRecord)) : List DecMessage :=
  (endedFrom (·.last) [] es).map fun m => { output := (m.1 ++ [m.2]).flatMap (·.bytes), verdict := m.2.status }

/-- A cycle as a unit's messages see it: a reset edge, or what the unit had in it, if anything. -/
def eventOf {R : Type} (rst : Bool) (r : Option R) : Event R :=
  if rst then .reset
  else
    match r with
    | some r => .item r
    | none => .quiet

/-- The cycle with inputs `c` that left the state `t`, by the encoder beat the host took. -/
def encEvent (c : Cycle) (t : State) : Event EncRecord := eventOf c.rst (encTaken t)

/-- The cycle with inputs `c` that left the state `t`, by the decoder beat the host took. -/
def decEvent (c : Cycle) (t : State) : Event DecRecord := eventOf c.rst (decTaken t)

/-- The encoder command that fires in a cycle (30_encoding.md R75, `fire`). -/
def Cycle.encFires (c : Cycle) : Option Instr := if c.encRspReady then c.encPresented else none

/-- The decoder command that fires in a cycle (30_encoding.md R75, `fire`). -/
def Cycle.decFires (c : Cycle) : Option Instr := if c.decRspReady then c.decPresented else none

/-- The encoder commands that fire in a run of clock cycles (30_encoding.md R75, `fire`). -/
def encFired (cs : List Cycle) : List Instr := cs.filterMap Cycle.encFires

/-- The decoder commands that fire in a run of clock cycles (30_encoding.md R75, `fire`). -/
def decFired (cs : List Cycle) : List Instr := cs.filterMap Cycle.decFires

/-- The cycle with inputs `c`, by the encoder command that fires. -/
def encSent (c : Cycle) : Event Instr := eventOf c.rst c.encFires

/-- The cycle with inputs `c`, by the decoder command that fires. -/
def decSent (c : Cycle) : Event Instr := eventOf c.rst c.decFires

/-- A command with `last = 1` ends its message (30_encoding.md R71, R72). -/
def endsMessage (i : Instr) : Bool :=
  match i with
  | .encNop => false
  | .encPush _ => false
  | .encFlush => true
  | .encPushl _ => true
  | .decNop => false
  | .decPush _ => false
  | .decEnd => true
  | .decPushl _ => true
  | .lutS2c _ => false
  | .lutC2s _ => false

/-- The element of the message a command carries, if it has `has_data = 1` (30_encoding.md R71, R72). -/
def carried (i : Instr) : List Byte :=
  match i with
  | .encNop => []
  | .encPush b => [b]
  | .encFlush => []
  | .encPushl b => [b]
  | .decNop => []
  | .decPush c => [c]
  | .decEnd => []
  | .decPushl c => [c]
  | .lutS2c _ => []
  | .lutC2s _ => []

/-- The messages whose end mark is issued to a unit: "the data of all data-carrying commands issued to one unit since reset or
since the previous command with `last = 1`, up to and including the next command with `last = 1`" (00_scope.md R9,
"Message"). -/
def sentMessages (es : List (Event Instr)) : List (List Byte) :=
  (endedFrom endsMessage [] es).map fun m => (m.1 ++ [m.2]).flatMap carried

/-- The inputs of the next `n` clock cycles; idle where none is left (notes/assumptions/4.md). -/
def State.inputs (s : State) : Nat → List Cycle
  | 0 => []
  | n + 1 => s.takeCycle.1 :: s.takeCycle.2.inputs n

/-- The beats of a message are of this shape: the last of them, and only it, has `last = 1` (43_message_contract.md R192,
R193). -/
def endsOnce (lasts : List Bool) : Bool := lasts.dropLast.all (!·) && lasts.getLast? == some true

end Sys2Proof.Machine
end

