-- ==== Sys2Proof/Safety.lean ====
section
/-! DEFINITION. What claims are stated in: the invariants of 10_state.md R32, the shapes of the response words
(30_encoding.md R77, R78, R80), what an instruction of one unit leaves alone, and the abstract states of the decoder
(42_decoder.md R159). -/

namespace Sys2Proof.Machine

/-- The encoder's invariants (10_state.md R32 points 1 and 2). -/
abbrev EncRegs.Inv (e : EncRegs) : Prop :=
  e.cnt ≠ 3 ∧ (e.cnt = 0 → e.b0 = 0 ∧ e.b1 = 0) ∧ (e.cnt = 1 → e.b1 = 0)

/-- The decoder's invariants (10_state.md R32 points 3 to 7). -/
abbrev DecRegs.Inv (d : DecRegs) : Prop :=
  d.err ≠ .malformedLength ∧
  (d.err = .ok → d.pad2 = true → d.pos = 3 ∧ d.closed = false ∧ d.s2 = 0) ∧
  (d.err = .ok → d.closed = true → d.pos = 0 ∧ d.s0 = 0 ∧ d.s1 = 0 ∧ d.s2 = 0) ∧
  (d.err = .ok → d.pos = 0 → d.s0 = 0 ∧ d.s1 = 0 ∧ d.s2 = 0 ∧ d.pad2 = false) ∧
  (d.err = .ok → d.pos = 1 → d.s1 = 0 ∧ d.s2 = 0) ∧
  (d.err = .ok → d.pos = 2 → d.s2 = 0)

/-- The register invariants of both units. -/
abbrev State.Inv (s : State) : Prop := s.enc.Inv ∧ s.dec.Inv

/-- A character of the alphabet: one of the 64 entries of the forward ROM. -/
abbrev inAlphabet (c : Byte) : Prop := ∃ v : Sym, S2C v = c

/-- A value `ERSP` can take (30_encoding.md R77): nothing; or characters, padded only at the end and only with `last = 1`;
or `last` alone. -/
abbrev ErspShape (valid : Bool) (w : ErspWord) : Prop :=
  (valid = false ∧ w = 0) ∨
  (valid = true ∧ w[33] = true ∧ w[32] = false ∧ w.extractLsb' 0 32 = 0) ∨
  (valid = true ∧ w[32] = true ∧
    inAlphabet (w.extractLsb' 0 8) ∧ inAlphabet (w.extractLsb' 8 8) ∧
    (inAlphabet (w.extractLsb' 16 8) ∨ w.extractLsb' 16 8 = PAD) ∧
    (inAlphabet (w.extractLsb' 24 8) ∨ w.extractLsb' 24 8 = PAD) ∧
    (w.extractLsb' 16 8 = PAD → w.extractLsb' 24 8 = PAD) ∧
    (w.extractLsb' 24 8 = PAD → w[33] = true))

/-- A value `DRSP` can take (30_encoding.md R78, R80): nothing; or a beat with a byte or the end mark, its status 0 unless
`last = 1`, no byte beside a status other than `OK`, and 0 in the lanes at or above `nbytes`. -/
abbrev DrspShape (valid : Bool) (w : DrspWord) : Prop :=
  (valid = false ∧ w = 0) ∨
  (valid = true ∧ (w.extractLsb' 24 2 ≠ 0 ∨ w[26] = true) ∧
    (w[26] = false → w.extractLsb' 27 2 = 0) ∧
    (w.extractLsb' 27 2 ≠ 0 → w.extractLsb' 24 2 = 0) ∧
    (w.extractLsb' 24 2 = 0 → w.extractLsb' 0 8 = 0) ∧
    ((w.extractLsb' 24 2).toNat < 2 → w.extractLsb' 8 8 = 0) ∧
    ((w.extractLsb' 24 2).toNat < 3 → w.extractLsb' 16 8 = 0))

/-- The response ports show only words the hardware can produce. -/
abbrev Pins.Shapes (p : Pins) : Prop := ErspShape p.encRspValid p.encRsp ∧ DrspShape p.decRspValid p.decRsp

/-- The encoder's ports show this record: valid when `nonnull`, the packed word where valid and 0 where not
(30_encoding.md R75). -/
abbrev Pins.showsEnc (p : Pins) (r : EncRecord) : Prop :=
  p.encRspValid = r.nonnull ∧ p.encRsp = if r.nonnull then r.pack else 0

/-- The decoder's ports show this record (30_encoding.md R75). -/
abbrev Pins.showsDec (p : Pins) (r : DecRecord) : Prop :=
  p.decRspValid = r.nonnull ∧ p.decRsp = if r.nonnull then r.pack else 0

/-- What an encoder instruction leaves alone: every decoder register, the decoder's ports, both ready outputs, the ROM ports
and the inputs to come (20_memory.md R59 point 3). -/
abbrev EncFrame (s t : State) : Prop :=
  t.dec = s.dec ∧ t.pending = s.pending ∧
  t.pins.decCmdReady = s.pins.decCmdReady ∧ t.pins.decRspValid = s.pins.decRspValid ∧ t.pins.decRsp = s.pins.decRsp ∧
  t.pins.encCmdReady = s.pins.encCmdReady ∧ t.pins.symData = s.pins.symData ∧ t.pins.chrData = s.pins.chrData

/-- What a decoder instruction leaves alone: every encoder register, the encoder's ports, both ready outputs, the ROM ports
and the inputs to come (20_memory.md R59 point 3). -/
abbrev DecFrame (s t : State) : Prop :=
  t.enc = s.enc ∧ t.pending = s.pending ∧
  t.pins.encCmdReady = s.pins.encCmdReady ∧ t.pins.encRspValid = s.pins.encRspValid ∧ t.pins.encRsp = s.pins.encRsp ∧
  t.pins.decCmdReady = s.pins.decCmdReady ∧ t.pins.symData = s.pins.symData ∧ t.pins.chrData = s.pins.chrData

/-- The record the encoder's ports show: none emitted and no end mark where there is no beat (30_encoding.md R75, R76). -/
def shownEnc (s : State) : EncRecord :=
  if s.pins.encRspValid then (unpackErsp s.pins.encRsp).getD { chars := [], last := false } else { chars := [], last := false }

/-- The record the decoder's ports show: nothing emitted and no end mark where there is no beat (30_encoding.md R75, R78). -/
def shownDec (s : State) : DecRecord :=
  if s.pins.decRspValid then (unpackDrsp s.pins.decRsp).getD { bytes := [], last := false, status := .ok }
  else { bytes := [], last := false, status := .ok }

/-- The character step as 42_decoder.md R153 writes it, arm by arm: from the registers `d`, the character `c` leaves `d'` and
emits `out`. Stated without the model's own operations. -/
abbrev CharStep (d : DecRegs) (c : Byte) (d' : DecRegs) (out : List Byte) : Prop :=
  (d.err ≠ .ok → d' = { d with pos := d.pos + 1 } ∧ out = []) ∧
  (d.err = .ok → (C2S c).1 = .inv → d' = { d with pos := d.pos + 1, err := .invalidSymbol } ∧ out = []) ∧
  (d.err = .ok → (C2S c).1 = .sym → d.closed = true ∨ d.pad2 = true →
    d' = { d with pos := d.pos + 1, err := .malformedPadding } ∧ out = []) ∧
  (d.err = .ok → (C2S c).1 = .sym → d.closed = false → d.pad2 = false →
    (d.pos = 0 → d' = { d with pos := 1, s0 := (C2S c).2 } ∧ out = []) ∧
    (d.pos = 1 → d' = { d with pos := 2, s1 := (C2S c).2 } ∧ out = []) ∧
    (d.pos = 2 → d' = { d with pos := 3, s2 := (C2S c).2 } ∧ out = []) ∧
    (d.pos = 3 → d' = { d with pos := 0, s0 := 0, s1 := 0, s2 := 0 } ∧
      ∃ b0 b1 b2 : Byte, out = [b0, b1, b2] ∧ b0 ++ b1 ++ b2 = d.s0 ++ d.s1 ++ d.s2 ++ (C2S c).2)) ∧
  (d.err = .ok → (C2S c).1 = .pad → d.closed = true ∨ d.pos = 0 ∨ d.pos = 1 →
    d' = { d with pos := d.pos + 1, err := .malformedPadding } ∧ out = []) ∧
  (d.err = .ok → (C2S c).1 = .pad → d.closed = false → d.pos = 2 → d' = { d with pos := 3, pad2 := true } ∧ out = []) ∧
  (d.err = .ok → (C2S c).1 = .pad → d.closed = false → d.pos = 3 →
    d' = { d with pos := 0, s0 := 0, s1 := 0, s2 := 0, pad2 := false, closed := true } ∧
    (d.pad2 = true → out = [(d.s0 ++ d.s1).extractLsb' 4 8]) ∧
    (d.pad2 = false → out = [(d.s0 ++ d.s1 ++ d.s2).extractLsb' 10 8, (d.s0 ++ d.s1 ++ d.s2).extractLsb' 2 8]))

/-- The four events that raise `MalformedPadding` while no error is latched (60_exceptions.md R223). -/
abbrev PaddingFault (d : DecRegs) (k : CharClass) : Prop :=
  (k = .pad ∧ d.pos.toNat < 2) ∨ (k = .pad ∧ d.closed = true) ∨ (k = .sym ∧ d.pad2 = true) ∨ (k = .sym ∧ d.closed = true)

/-- Two states alike for the encoder: its registers and its ports. -/
abbrev sameEnc (s t : State) : Prop :=
  s.enc = t.enc ∧ s.pins.encCmdReady = t.pins.encCmdReady ∧ s.pins.encRspValid = t.pins.encRspValid ∧
  s.pins.encRsp = t.pins.encRsp

/-- Two states alike for the decoder: its registers and its ports. -/
abbrev sameDec (s t : State) : Prop :=
  s.dec = t.dec ∧ s.pins.decCmdReady = t.pins.decCmdReady ∧ s.pins.decRspValid = t.pins.decRspValid ∧
  s.pins.decRsp = t.pins.decRsp

/-- The inputs of a cycle that reach the encoder (30_encoding.md R74). -/
def Cycle.encInputs (c : Cycle) : Bool × Bool × CmdWord × Bool := (c.rst, c.encCmdValid, c.encCmd, c.encRspReady)

/-- The inputs of a cycle that reach the decoder (30_encoding.md R74). -/
def Cycle.decInputs (c : Cycle) : Bool × Bool × CmdWord × Bool := (c.rst, c.decCmdValid, c.decCmd, c.decRspReady)

/-- The abstract states of the padding structure (42_decoder.md R159). -/
inductive DecPhase where
  /-- No error, not closed, position 0. -/
  | G0
  /-- No error, not closed, position 1. -/
  | G1
  /-- No error, not closed, position 2. -/
  | G2
  /-- No error, not closed, position 3, `dec.pad2 = 0`. -/
  | G3
  /-- No error, position 3, `dec.pad2 = 1`. -/
  | P3
  /-- No error, closed, position 0. -/
  | C0
  /-- An error is latched. -/
  | E
deriving DecidableEq, Repr

/-- The abstract state a decoder is in (42_decoder.md R159); under `DecRegs.Inv` these are all there are. -/
def DecRegs.phase (d : DecRegs) : DecPhase :=
  if d.err ≠ .ok then .E
  else if d.closed then .C0
  else if d.pad2 then .P3
  else if d.pos = 0 then .G0
  else if d.pos = 1 then .G1
  else if d.pos = 2 then .G2
  else .G3

/-- The transition table of the padding structure: the next abstract state, the error latched if any, and the number of
bytes emitted (42_decoder.md R159). -/
def phaseStep (p : DecPhase) (k : CharClass) : DecPhase × Option Code × Nat :=
  match p, k with
  | .G0, .sym => (.G1, none, 0)
  | .G0, .pad => (.E, some .malformedPadding, 0)
  | .G0, .inv => (.E, some .invalidSymbol, 0)
  | .G1, .sym => (.G2, none, 0)
  | .G1, .pad => (.E, some .malformedPadding, 0)
  | .G1, .inv => (.E, some .invalidSymbol, 0)
  | .G2, .sym => (.G3, none, 0)
  | .G2, .pad => (.P3, none, 0)
  | .G2, .inv => (.E, some .invalidSymbol, 0)
  | .G3, .sym => (.G0, none, 3)
  | .G3, .pad => (.C0, none, 2)
  | .G3, .inv => (.E, some .invalidSymbol, 0)
  | .P3, .sym => (.E, some .malformedPadding, 0)
  | .P3, .pad => (.C0, none, 1)
  | .P3, .inv => (.E, some .invalidSymbol, 0)
  | .C0, .sym => (.E, some .malformedPadding, 0)
  | .C0, .pad => (.E, some .malformedPadding, 0)
  | .C0, .inv => (.E, some .invalidSymbol, 0)
  | .E, .sym => (.E, none, 0)
  | .E, .pad => (.E, none, 0)
  | .E, .inv => (.E, none, 0)

end Sys2Proof.Machine
end

