-- ==== Sys2Proof/Certificates/Slice0/Obligations.lean ====
section
/-! DEFINITION. The statements for the provers, from the numbered rules of spec/. A docstring names the rule; where a clause
rests on a choice of the model, it names the log entry. -/

open Sys2Proof Sys2Proof.Machine

/-! Encoding -/

/-- Words of 30_encoding.md R82 and of 95_test_vectors.md part 4, each on its port, read as the spec writes them. -/
def Obligations.WrittenWordsDecode : Prop :=
  decodeWord ⟨.encCmd, 0x000⟩ = .ok .encNop ∧ decodeWord ⟨.encCmd, 0x1A3⟩ = .ok (.encPush 0xA3) ∧
  decodeWord ⟨.encCmd, 0x2AB⟩ = .ok .encFlush ∧ decodeWord ⟨.encCmd, 0x30F⟩ = .ok (.encPushl 0x0F) ∧
  decodeWord ⟨.decCmd, 0x0FF⟩ = .ok .decNop ∧ decodeWord ⟨.decCmd, 0x154⟩ = .ok (.decPush 0x54) ∧
  decodeWord ⟨.decCmd, 0x200⟩ = .ok .decEnd ∧ decodeWord ⟨.decCmd, 0x33D⟩ = .ok (.decPushl 0x3D) ∧
  decodeWord ⟨.romSym, 40⟩ = .ok (.lutS2c 40) ∧ decodeWord ⟨.romChr, 0x6F⟩ = .ok (.lutC2s 0x6F)

/-- Decoding the word of a well-formed instruction, on its port, gives the instruction back (30_encoding.md R71, R72, R84,
R85). -/
def Obligations.DecodeOfEncodeIsIdentity : Prop :=
  ∀ i : Instr, i.wellFormed = true → (encode i).port = i.port ∧ decodeWord (encode i) = .ok i

/-- Encoding what a command word decodes to gives the word back, with the ignored `data` field of a command without data
driven 0 (30_encoding.md R72, R73, R80). -/
def Obligations.EncodeOfDecodeKeepsEveryUsedBit : Prop :=
  ∀ w : CmdWord,
    encode (decodeEnc w) = ⟨.encCmd, (if w[8] then w else w &&& 0x300).toNat⟩ ∧
    encode (decodeDec w) = ⟨.decCmd, (if w[8] then w else w &&& 0x300).toNat⟩

/-- Command selection by mask and match on both ports, for every word (30_encoding.md R72). -/
def Obligations.SelectionByMaskAndMatch : Prop :=
  ∀ w : CmdWord,
    (w &&& 0x300 = 0x000 → decodeWord ⟨.encCmd, w.toNat⟩ = .ok .encNop ∧ decodeWord ⟨.decCmd, w.toNat⟩ = .ok .decNop) ∧
    (w &&& 0x300 = 0x100 → decodeWord ⟨.encCmd, w.toNat⟩ = .ok (.encPush (w.setWidth 8)) ∧
      decodeWord ⟨.decCmd, w.toNat⟩ = .ok (.decPush (w.setWidth 8))) ∧
    (w &&& 0x300 = 0x200 → decodeWord ⟨.encCmd, w.toNat⟩ = .ok .encFlush ∧ decodeWord ⟨.decCmd, w.toNat⟩ = .ok .decEnd) ∧
    (w &&& 0x300 = 0x300 → decodeWord ⟨.encCmd, w.toNat⟩ = .ok (.encPushl (w.setWidth 8)) ∧
      decodeWord ⟨.decCmd, w.toNat⟩ = .ok (.decPushl (w.setWidth 8))) ∧
    (w &&& 0x300 = 0x000 ∨ w &&& 0x300 = 0x100 ∨ w &&& 0x300 = 0x200 ∨ w &&& 0x300 = 0x300)

/-! Bit regrouping -/

/-- `SYMS3`: the source's four formulas on natural numbers, the slices, and the 24-bit regrouping (41_encoder.md R121). -/
def Obligations.FullGroupSymbols : Prop :=
  ∀ b0 b1 b2 : Byte, ∃ s0 s1 s2 s3 : Sym, syms3 b0 b1 b2 = (s0, s1, s2, s3) ∧
    s0.toNat = (b0.toNat >>> 2) &&& 0x3F ∧
    s1.toNat = ((b0.toNat &&& 0x03) <<< 4) ||| ((b1.toNat >>> 4) &&& 0x0F) ∧
    s2.toNat = ((b1.toNat &&& 0x0F) <<< 2) ||| ((b2.toNat >>> 6) &&& 0x03) ∧
    s3.toNat = b2.toNat &&& 0x3F ∧
    s0 = b0.extractLsb' 2 6 ∧ s1 = b0.extractLsb' 0 2 ++ b1.extractLsb' 4 4 ∧
    s2 = b1.extractLsb' 0 4 ++ b2.extractLsb' 6 2 ∧ s3 = b2.extractLsb' 0 6 ∧
    s0 ++ s1 ++ s2 ++ s3 = b0 ++ b1 ++ b2

/-- `TAIL2` and `TAIL1`: the source's formulas, that they begin `SYMS3` with 0 for the absent bytes, and their zero low bits
(41_encoder.md R122, R123). -/
def Obligations.TailSymbols : Prop :=
  ∀ b0 b1 : Byte,
    (∃ s0 s1 s2 : Sym, tail2 b0 b1 = (s0, s1, s2) ∧
      s0.toNat = (b0.toNat >>> 2) &&& 0x3F ∧
      s1.toNat = ((b0.toNat &&& 0x03) <<< 4) ||| ((b1.toNat >>> 4) &&& 0x0F) ∧
      s2.toNat = (b1.toNat &&& 0x0F) <<< 2 ∧
      s0 = b0.extractLsb' 2 6 ∧ s1 = b0.extractLsb' 0 2 ++ b1.extractLsb' 4 4 ∧ s2 = b1.extractLsb' 0 4 ++ 0#2 ∧
      (s0, s1, s2) = ((syms3 b0 b1 0).1, (syms3 b0 b1 0).2.1, (syms3 b0 b1 0).2.2.1) ∧ s2.toNat % 4 = 0) ∧
    (∃ s0 s1 : Sym, tail1 b0 = (s0, s1) ∧
      s0.toNat = (b0.toNat >>> 2) &&& 0x3F ∧ s1.toNat = (b0.toNat &&& 0x03) <<< 4 ∧
      s0 = b0.extractLsb' 2 6 ∧ s1 = b0.extractLsb' 0 2 ++ 0#4 ∧
      (s0, s1) = ((syms3 b0 0 0).1, (syms3 b0 0 0).2.1) ∧ s1.toNat % 16 = 0)

/-- `BYTES3`, `BYTES2`, `BYTES1`: the source's formulas, the slices, which bits are not used, and that `BYTES3` inverts
`SYMS3` in both directions (42_decoder.md R151). -/
def Obligations.GroupBytes : Prop :=
  ∀ s0 s1 s2 s3 : Sym, ∃ b0 b1 b2 : Byte,
    bytes3 s0 s1 s2 s3 = [b0, b1, b2] ∧ bytes2 s0 s1 s2 = [b0, b1] ∧ bytes1 s0 s1 = [b0] ∧
    b0.toNat = (s0.toNat <<< 2) ||| (s1.toNat >>> 4) ∧
    b1.toNat = ((s1.toNat &&& 0x0F) <<< 4) ||| (s2.toNat >>> 2) ∧
    b2.toNat = ((s2.toNat &&& 0x03) <<< 6) ||| s3.toNat ∧
    b0 = s0 ++ s1.extractLsb' 4 2 ∧ b1 = s1.extractLsb' 0 4 ++ s2.extractLsb' 2 4 ∧ b2 = s2.extractLsb' 0 2 ++ s3 ∧
    b0 ++ b1 ++ b2 = s0 ++ s1 ++ s2 ++ s3 ∧
    syms3 b0 b1 b2 = (s0, s1, s2, s3) ∧
    (∀ c0 c1 c2 : Byte, syms3 c0 c1 c2 = (s0, s1, s2, s3) → bytes3 s0 s1 s2 s3 = [c0, c1, c2])

/-! Alphabet ROM -/

/-- `S2C(v)` in closed form, for every symbol, and the padding character (40_alphabet_lut.md R102). The codes are ASCII,
which the spec marks as its own decision D2 (log entry 16). -/
def Obligations.ForwardRomClosedForm : Prop :=
  ∀ v : Sym,
    (v.toNat ≤ 25 → (S2C v).toNat = 0x41 + v.toNat) ∧
    (26 ≤ v.toNat → v.toNat ≤ 51 → (S2C v).toNat = 0x61 + (v.toNat - 26)) ∧
    (52 ≤ v.toNat → v.toNat ≤ 61 → (S2C v).toNat = 0x30 + (v.toNat - 52)) ∧
    (v.toNat = 62 → S2C v = 0x2B) ∧ (v.toNat = 63 → S2C v = 0x2F) ∧
    0x2B ≤ (S2C v).toNat ∧ (S2C v).toNat ≤ 0x7A ∧ PAD = 0x3D ∧ S2C v ≠ PAD ∧ (∀ v' : Sym, S2C v = S2C v' → v = v')

/-- `C2S(c)` in closed form, for every code (40_alphabet_lut.md R105), in the codes of log entry 16. -/
def Obligations.InverseRomClosedForm : Prop :=
  ∀ c : Byte,
    C2S c =
      if 0x41 ≤ c.toNat ∧ c.toNat ≤ 0x5A then (.sym, BitVec.ofNat 6 (c.toNat - 0x41))
      else if 0x61 ≤ c.toNat ∧ c.toNat ≤ 0x7A then (.sym, BitVec.ofNat 6 (c.toNat - 0x61 + 26))
      else if 0x30 ≤ c.toNat ∧ c.toNat ≤ 0x39 then (.sym, BitVec.ofNat 6 (c.toNat - 0x30 + 52))
      else if c = 0x2B then (.sym, 62)
      else if c = 0x2F then (.sym, 63)
      else if c = 0x3D then (.pad, 0)
      else (.inv, 0)

/-- The table's five laws (40_alphabet_lut.md R107, which the spec derives from R102 and R105; codes of log entry 16). -/
def Obligations.AlphabetLaws : Prop :=
  (∀ v : Sym, C2S (S2C v) = (.sym, v)) ∧
  (∀ c : Byte, (C2S c).1 = .sym → S2C (C2S c).2 = c) ∧
  (∀ v v' : Sym, S2C v = S2C v' → v = v') ∧
  (∀ v : Sym, S2C v ≠ 0x3D) ∧
  (C2S 0x3D = (.pad, 0) ∧ ∀ c : Byte, (C2S c).1 = .pad → c = 0x3D)

/-- The inverse ROM's 256 entries `{cls, sym}`: `0x40 + v` for the symbol `v`, `0x80` for the padding character, `0x00`
otherwise, and 64, 1 and 191 entries of the three classes (40_alphabet_lut.md R106, which the spec derives from R105; classes
as 30_encoding.md R84; codes of log entry 16). -/
def Obligations.InverseRomEntries : Prop :=
  (∀ c : Byte, (memReadChr c).toNat =
      if 0x41 ≤ c.toNat ∧ c.toNat ≤ 0x5A then 0x40 + (c.toNat - 0x41)
      else if 0x61 ≤ c.toNat ∧ c.toNat ≤ 0x7A then 0x40 + (c.toNat - 0x61 + 26)
      else if 0x30 ≤ c.toNat ∧ c.toNat ≤ 0x39 then 0x40 + (c.toNat - 0x30 + 52)
      else if c = 0x2B then 0x40 + 62
      else if c = 0x2F then 0x40 + 63
      else if c = 0x3D then 0x80
      else 0x00) ∧
  (∀ c : Byte, (memReadChr c).extractLsb' 6 2 ≠ 3 ∧
    ((memReadChr c).extractLsb' 6 2 ≠ 1 → (memReadChr c).extractLsb' 0 6 = 0)) ∧
  (List.range 256).countP (fun n => (memReadChr (BitVec.ofNat 8 n)).extractLsb' 6 2 == 1) = 64 ∧
  (List.range 256).countP (fun n => (memReadChr (BitVec.ofNat 8 n)).extractLsb' 6 2 == 2) = 1 ∧
  (List.range 256).countP (fun n => (memReadChr (BitVec.ofNat 8 n)).extractLsb' 6 2 == 0) = 191

/-- `LUT.S2C v` always completes, gives the code of 40_alphabet_lut.md R102, and writes no state (R103, R57). That the entry
is shown at `pins.symData` is the model's choice (log entry 5). -/
def Obligations.ForwardReadCompletes : Prop :=
  ∀ (v : Sym) (s : State), ∃ t, exec (.lutS2c v) s = .next t ∧ t.pins.symData = some (codeOf v) ∧
    t.enc = s.enc ∧ t.dec = s.dec ∧ t.pending = s.pending ∧ t.pins = { s.pins with symData := t.pins.symData }

/-- `LUT.C2S c` always completes, gives the entry whose class and symbol are those of 40_alphabet_lut.md R105, and writes no
state (R105, R57). That the entry is shown at `pins.chrData` is the model's choice (log entry 5). -/
def Obligations.InverseReadCompletes : Prop :=
  ∀ (c : Byte) (s : State), ∃ t e, exec (.lutC2s c) s = .next t ∧ t.pins.chrData = some e ∧
    (entryClass e, entrySym e) = classify c ∧
    t.enc = s.enc ∧ t.dec = s.dec ∧ t.pending = s.pending ∧ t.pins = { s.pins with chrData := t.pins.chrData }

/-! Encoder commands -/

/-- `ENC.NOP` in every state: no register changes, no beat (41_encoder.md R124). -/
def Obligations.EncNopChangesNothing : Prop :=
  ∀ s : State, ∃ t, exec .encNop s = .next t ∧ t.enc = s.enc ∧ t.pins.encRspValid = false ∧ t.pins.encRsp = 0 ∧ EncFrame s t

/-- `ENC.PUSH b` in every legal state: the registers, the beat and its word, and the frame (41_encoder.md R125; the word as
30_encoding.md R76 lays it out). -/
def Obligations.EncPushResult : Prop :=
  ∀ (b : Byte) (s : State), s.enc.cnt ≠ 3 → ∃ t, exec (.encPush b) s = .next t ∧ EncFrame s t ∧
    (s.enc.cnt = 0 → t.enc = { s.enc with b0 := b, cnt := 1 } ∧ t.pins.encRspValid = false ∧ t.pins.encRsp = 0) ∧
    (s.enc.cnt = 1 → t.enc = { s.enc with b1 := b, cnt := 2 } ∧ t.pins.encRspValid = false ∧ t.pins.encRsp = 0) ∧
    (s.enc.cnt = 2 → t.enc = ⟨0, 0, 0⟩ ∧ t.pins.encRspValid = true ∧
      ∃ s0 s1 s2 s3 : Sym, s0 ++ s1 ++ s2 ++ s3 = s.enc.b0 ++ s.enc.b1 ++ b ∧
        t.pins.encRsp = 0#1 ++ 1#1 ++ S2C s3 ++ S2C s2 ++ S2C s1 ++ S2C s0)

/-- `ENC.FLUSH` in every legal state: the padded tail, `last = 1`, and the reset state (41_encoder.md R126). -/
def Obligations.EncFlushResult : Prop :=
  ∀ s : State, s.enc.cnt ≠ 3 → ∃ t, exec .encFlush s = .next t ∧ EncFrame s t ∧ t.enc = ⟨0, 0, 0⟩ ∧
    t.pins.encRspValid = true ∧
    (s.enc.cnt = 0 → t.pins.encRsp = 0x200000000#34) ∧
    (s.enc.cnt = 1 → ∃ s0 s1 : Sym, s0 ++ s1 = s.enc.b0 ++ 0#4 ∧
      t.pins.encRsp = 1#1 ++ 1#1 ++ 0x3D#8 ++ 0x3D#8 ++ S2C s1 ++ S2C s0) ∧
    (s.enc.cnt = 2 → ∃ s0 s1 s2 : Sym, s0 ++ s1 ++ s2 = s.enc.b0 ++ s.enc.b1 ++ 0#2 ∧
      t.pins.encRsp = 1#1 ++ 1#1 ++ 0x3D#8 ++ S2C s2 ++ S2C s1 ++ S2C s0)

/-- `ENC.PUSHL b` in every legal state: always 4 characters and `last = 1`, and the reset state (41_encoder.md R127). -/
def Obligations.EncPushlResult : Prop :=
  ∀ (b : Byte) (s : State), s.enc.cnt ≠ 3 → ∃ t, exec (.encPushl b) s = .next t ∧ EncFrame s t ∧ t.enc = ⟨0, 0, 0⟩ ∧
    t.pins.encRspValid = true ∧
    (s.enc.cnt = 0 → ∃ s0 s1 : Sym, s0 ++ s1 = b ++ 0#4 ∧
      t.pins.encRsp = 1#1 ++ 1#1 ++ 0x3D#8 ++ 0x3D#8 ++ S2C s1 ++ S2C s0) ∧
    (s.enc.cnt = 1 → ∃ s0 s1 s2 : Sym, s0 ++ s1 ++ s2 = s.enc.b0 ++ b ++ 0#2 ∧
      t.pins.encRsp = 1#1 ++ 1#1 ++ 0x3D#8 ++ S2C s2 ++ S2C s1 ++ S2C s0) ∧
    (s.enc.cnt = 2 → ∃ s0 s1 s2 s3 : Sym, s0 ++ s1 ++ s2 ++ s3 = s.enc.b0 ++ s.enc.b1 ++ b ∧
      t.pins.encRsp = 1#1 ++ 1#1 ++ S2C s3 ++ S2C s2 ++ S2C s1 ++ S2C s0)

/-- `ENC.PUSHL b` has the effect of `ENC.PUSH b` followed by `ENC.FLUSH`, the two responses merged in one beat (41_encoder.md
R127, corner cases). -/
def Obligations.EncPushlMergesPushAndFlush : Prop :=
  ∀ (b : Byte) (s : State), s.enc.cnt ≠ 3 → ∃ t u v, exec (.encPush b) s = .next t ∧ exec .encFlush t = .next u ∧
    exec (.encPushl b) s = .next v ∧ v.enc = u.enc ∧
    shownEnc v = { chars := (shownEnc t).chars ++ (shownEnc u).chars, last := true } ∧
    (shownEnc t).last = false ∧ (shownEnc u).last = true

/-- Every instruction completes in every legal state: there is no trap. An encoder command changes only the encoder's
registers and response, a decoder command only the decoder's (41_encoder.md R120, 60_exceptions.md R220, 20_memory.md R59
point 3). -/
def Obligations.EveryInstructionCompletes : Prop :=
  ∀ (i : Instr) (s : State), (i.port = .encCmd → s.enc.cnt ≠ 3) → ∃ t, exec i s = .next t ∧ t.pending = s.pending ∧
    (i.port = .encCmd → EncFrame s t) ∧ (i.port = .decCmd → DecFrame s t) ∧
    (i.port = .romSym ∨ i.port = .romChr → t.enc = s.enc ∧ t.dec = s.dec)

/-- The model's only stop: an encoder command but `ENC.NOP` in the unreachable `enc.cnt = 3` is refused by name (the model's
choice, log entry 6; 93_implementation_defined.md X1). -/
def Obligations.UnreachableCountIsRefused : Prop :=
  ∀ (i : Instr) (s : State),
    (exec i s = .refused .encCountUnreachable ↔ s.enc.cnt = 3 ∧ i.port = .encCmd ∧ i ≠ .encNop) ∧
    (∀ r, exec i s = .refused r → r = .encCountUnreachable)

/-- The encoder's response word field by field, the values it can take, and which command gives which (30_encoding.md R76;
the shapes are those the spec derives in R77). -/
def Obligations.EncoderResponseWords : Prop :=
  (∀ (l : Bool) (c0 c1 c2 c3 : Byte),
    (EncRecord.mk [c0, c1, c2, c3] l).pack = BitVec.ofBool l ++ 1#1 ++ c3 ++ c2 ++ c1 ++ c0 ∧
    (EncRecord.mk [] l).pack = BitVec.ofBool l ++ 0#1 ++ 0#8 ++ 0#8 ++ 0#8 ++ 0#8) ∧
  (∀ (i : Instr) (s t : State), i.port = .encCmd → exec i s = .next t →
    ErspShape t.pins.encRspValid t.pins.encRsp ∧
    (t.pins.encRspValid = true → ∃ r, unpackErsp t.pins.encRsp = some r ∧ r.wellFormed = true ∧ r.pack = t.pins.encRsp) ∧
    (∀ b, i = .encPush b → t.pins.encRspValid = true → t.pins.encRsp[33] = false ∧ t.pins.encRsp[32] = true) ∧
    (∀ b, i = .encPushl b → t.pins.encRspValid = true ∧ t.pins.encRsp[33] = true ∧ t.pins.encRsp[32] = true) ∧
    (i = .encFlush → t.pins.encRspValid = true ∧ t.pins.encRsp[33] = true ∧ (t.pins.encRsp[32] = true ↔ s.enc.cnt ≠ 0)))

/-- After `n` pushes of a message `enc.cnt = n mod 3`, and no command with `last = 0` emits the padding character
(10_state.md R22; 41_encoder.md R129, which the spec derives from R125 to R127). -/
def Obligations.CountIsPushesModuloThree : Prop :=
  ∀ (B : List Byte) (s : State), s.enc = ⟨0, 0, 0⟩ → ∃ ts, runCommands (B.map Instr.encPush) s = some ts ∧
    (∀ t, ts.getLast? = some t → t.enc.cnt.toNat = B.length % 3) ∧
    (0x3D : Byte) ∉ encEmitted ts ∧ encEmitted ts = encodeBytes (B.take (3 * (B.length / 3)))

/-! Decoder commands -/

/-- `DEC.NOP` in every state: no register changes, no beat (42_decoder.md R154). -/
def Obligations.DecNopChangesNothing : Prop :=
  ∀ s : State, ∃ t, exec .decNop s = .next t ∧ t.dec = s.dec ∧ t.pins.decRspValid = false ∧ t.pins.decRsp = 0 ∧ DecFrame s t

/-- `DEC.PUSH c` in every state: the character step arm by arm, `last = 0`, status 0 always, and the frame (42_decoder.md
R153, R155). -/
def Obligations.DecPushResult : Prop :=
  ∀ (c : Byte) (s : State), ∃ t out, exec (.decPush c) s = .next t ∧ DecFrame s t ∧ CharStep s.dec c t.dec out ∧
    t.pins.decRspValid = !out.isEmpty ∧ shownDec t = { bytes := out, last := false, status := .ok } ∧
    (out = [] → t.pins.decRsp = 0)

/-- `DEC.END` in every state: the status, `last = 1`, no byte, and the reset state (42_decoder.md R156). -/
def Obligations.DecEndResult : Prop :=
  ∀ s : State, ∃ t, exec .decEnd s = .next t ∧ DecFrame s t ∧ t.dec = ⟨0, 0, 0, 0, false, false, .ok⟩ ∧
    t.pins.decRspValid = true ∧
    (s.dec.pos ≠ 0 → t.pins.decRsp = 0x14000000#29) ∧
    (s.dec.pos = 0 → s.dec.err = .invalidSymbol → t.pins.decRsp = 0x0C000000#29) ∧
    (s.dec.pos = 0 → s.dec.err = .malformedPadding → t.pins.decRsp = 0x1C000000#29) ∧
    (s.dec.pos = 0 → s.dec.err = .ok → t.pins.decRsp = 0x04000000#29)

/-- `DEC.PUSHL c` in every state: the character step, then the end step on the registers it leaves (42_decoder.md R157). -/
def Obligations.DecPushlResult : Prop :=
  ∀ (c : Byte) (s : State), ∃ t d out, exec (.decPushl c) s = .next t ∧ DecFrame s t ∧ CharStep s.dec c d out ∧
    t.dec = ⟨0, 0, 0, 0, false, false, .ok⟩ ∧ t.pins.decRspValid = true ∧
    shownDec t = { bytes := out, last := true, status := if d.pos ≠ 0 then .malformedLength else d.err } ∧
    (out ≠ [] → (shownDec t).status = .ok)

/-- `DEC.PUSHL c` has the effect of `DEC.PUSH c` followed by `DEC.END`, the two responses merged in one beat (42_decoder.md
R157, corner cases). -/
def Obligations.DecPushlMergesPushAndEnd : Prop :=
  ∀ (c : Byte) (s : State), ∃ t u v, exec (.decPush c) s = .next t ∧ exec .decEnd t = .next u ∧
    exec (.decPushl c) s = .next v ∧ v.dec = u.dec ∧
    shownDec v = { bytes := (shownDec t).bytes ++ (shownDec u).bytes, last := true, status := (shownDec u).status } ∧
    (shownDec t).last = false ∧ (shownDec u).bytes = []

/-- The decoder's response word field by field for every number of bytes, with the codes of the status, and the values it can
take (30_encoding.md R78, R79). -/
def Obligations.DecoderResponseWords : Prop :=
  (∀ (st : Code) (l : Bool) (b0 b1 b2 : Byte),
    (DecRecord.mk [] l st).pack = st.bits ++ BitVec.ofBool l ++ 0#2 ++ 0#8 ++ 0#8 ++ 0#8 ∧
    (DecRecord.mk [b0] l st).pack = st.bits ++ BitVec.ofBool l ++ 1#2 ++ 0#8 ++ 0#8 ++ b0 ∧
    (DecRecord.mk [b0, b1] l st).pack = st.bits ++ BitVec.ofBool l ++ 2#2 ++ 0#8 ++ b1 ++ b0 ∧
    (DecRecord.mk [b0, b1, b2] l st).pack = st.bits ++ BitVec.ofBool l ++ 3#2 ++ b2 ++ b1 ++ b0 ∧
    (Code.ok.bits = 0 ∧ Code.invalidSymbol.bits = 1 ∧ Code.malformedLength.bits = 2 ∧ Code.malformedPadding.bits = 3)) ∧
  (∀ (i : Instr) (s t : State), i.port = .decCmd → exec i s = .next t → DrspShape t.pins.decRspValid t.pins.decRsp ∧
    (t.pins.decRspValid = true → ∃ r, unpackDrsp t.pins.decRsp = some r ∧ r.wellFormed = true ∧ r.pack = t.pins.decRsp))

/-- `InvalidSymbol`: raised exactly by a character of class `INV` while no error is latched, wherever it stands; reported by
`DEC.PUSHL` where the length is right (60_exceptions.md R222). -/
def Obligations.InvalidSymbolCause : Prop :=
  ∀ (c : Byte) (s t : State), s.dec.err = .ok →
    (exec (.decPush c) s = .next t → (t.dec.err = .invalidSymbol ↔ (C2S c).1 = .inv)) ∧
    (exec (.decPushl c) s = .next t → s.dec.pos = 3 → ((shownDec t).status = .invalidSymbol ↔ (C2S c).1 = .inv)) ∧
    ((C2S c).1 = .inv ↔ c ≠ 0x3D ∧ ¬ inAlphabet c)

/-- `MalformedPadding`: exactly the four events raise it while no error is latched (60_exceptions.md R223). -/
def Obligations.MalformedPaddingCauses : Prop :=
  ∀ (c : Byte) (s t : State), s.dec.err = .ok →
    (exec (.decPush c) s = .next t → (t.dec.err = .malformedPadding ↔ PaddingFault s.dec (C2S c).1)) ∧
    (exec (.decPushl c) s = .next t → s.dec.pos = 3 →
      ((shownDec t).status = .malformedPadding ↔ PaddingFault s.dec (C2S c).1))

/-- `MalformedLength`: exactly a command with `last = 1` that finds the number of characters no multiple of 4, and it is
never latched (60_exceptions.md R225). -/
def Obligations.MalformedLengthCause : Prop :=
  ∀ (c : Byte) (s t : State), s.dec.err ≠ .malformedLength →
    (exec .decEnd s = .next t → ((shownDec t).status = .malformedLength ↔ s.dec.pos ≠ 0)) ∧
    (exec (.decPushl c) s = .next t → ((shownDec t).status = .malformedLength ↔ s.dec.pos + 1 ≠ 0)) ∧
    (exec (.decPush c) s = .next t → t.dec.err ≠ .malformedLength)

/-- The latch: raising writes `dec.err`, advances `dec.pos` and nothing else, and emits nothing; from then on characters are
counted only, nothing is emitted and the error stays; `DEC.NOP` does not clear it (60_exceptions.md R224). -/
def Obligations.LatchIsPreciseAndFirstErrorWins : Prop :=
  ∀ (c : Byte) (s t : State),
    (exec (.decPush c) s = .next t → t.dec.err ≠ .ok →
      t.dec = { s.dec with pos := s.dec.pos + 1, err := t.dec.err } ∧ t.pins.decRspValid = false ∧
      (s.dec.err ≠ .ok → t.dec.err = s.dec.err)) ∧
    (exec (.decPush c) s = .next t → s.dec.err ≠ .ok →
      t.dec = { s.dec with pos := s.dec.pos + 1 } ∧ t.pins.decRspValid = false) ∧
    (exec (.decPushl c) s = .next t → s.dec.err ≠ .ok ∨ (shownDec t).status ≠ .ok → (shownDec t).bytes = []) ∧
    (exec .decNop s = .next t → t.dec.err = s.dec.err)

/-- `dec.pos` counts every character modulo 4, whether or not an error is latched (10_state.md R24). -/
def Obligations.PositionCountsEveryCharacter : Prop :=
  ∀ (S : List Byte) (s : State), ∃ ts, runCommands (S.map Instr.decPush) s = some ts ∧
    (∀ t, ts.getLast? = some t → t.dec.pos.toNat = (s.dec.pos.toNat + S.length) % 4)

/-- The transition table over the abstract states, from every state that meets the invariant, and its column for the end of
the message (42_decoder.md R159, which the spec derives from R153 and R156). -/
def Obligations.PaddingTransitionTable : Prop :=
  ∀ (c : Byte) (s : State), s.dec.Inv →
    (∃ t, exec (.decPush c) s = .next t ∧ t.dec.pos = s.dec.pos + 1 ∧
      t.dec.phase = (phaseStep s.dec.phase (C2S c).1).1 ∧
      (∀ k, (phaseStep s.dec.phase (C2S c).1).2.1 = some k → t.dec.err = k) ∧
      (s.dec.phase = .E → t.dec.err = s.dec.err) ∧
      (shownDec t).bytes.length = (phaseStep s.dec.phase (C2S c).1).2.2 ∧
      (s.dec.phase = .G0 → t.dec.phase = .G1 → t.dec.s0 = (C2S c).2) ∧
      (s.dec.phase = .G1 → t.dec.phase = .G2 → t.dec.s1 = (C2S c).2) ∧
      (s.dec.phase = .G2 → t.dec.phase = .G3 → t.dec.s2 = (C2S c).2)) ∧
    (∃ t, exec .decEnd s = .next t ∧ t.dec.phase = .G0 ∧
      (s.dec.phase = .G0 ∨ s.dec.phase = .C0 → (shownDec t).status = .ok) ∧
      (s.dec.phase = .G1 ∨ s.dec.phase = .G2 ∨ s.dec.phase = .G3 ∨ s.dec.phase = .P3 →
        (shownDec t).status = .malformedLength) ∧
      (s.dec.phase = .E → (shownDec t).status = if s.dec.pos ≠ 0 then .malformedLength else s.dec.err))

/-- Leniency: the bits of the last symbol that a padded group does not use change neither the bytes nor the registers after
it, so several strings decode to the same bytes (42_decoder.md R158). -/
def Obligations.UnusedTailBitsAreIgnored : Prop :=
  (∀ v : Sym, v.extractLsb' 4 2 = 1 → decodeText [0x51, S2C v, 0x3D, 0x3D] = .ok [0x41]) ∧
  ∀ (s : State) (x y : Sym), s.dec.err = .ok → s.dec.closed = false → s.dec.pos = 3 →
    (s.dec.pad2 = false → x.extractLsb' 2 4 = y.extractLsb' 2 4 →
      exec (.decPush 0x3D) { s with dec := { s.dec with s2 := x } } = exec (.decPush 0x3D) { s with dec := { s.dec with s2 := y } } ∧
      exec (.decPushl 0x3D) { s with dec := { s.dec with s2 := x } } = exec (.decPushl 0x3D) { s with dec := { s.dec with s2 := y } }) ∧
    (s.dec.pad2 = true → x.extractLsb' 4 2 = y.extractLsb' 4 2 →
      exec (.decPush 0x3D) { s with dec := { s.dec with s1 := x } } = exec (.decPush 0x3D) { s with dec := { s.dec with s1 := y } } ∧
      exec (.decPushl 0x3D) { s with dec := { s.dec with s1 := x } } = exec (.decPushl 0x3D) { s with dec := { s.dec with s1 := y } })

/-! Reset, invariants, whole-machine rules -/

/-- After reset every register is 0 and the response ports are idle (10_state.md R33). -/
def Obligations.ResetValues : Prop :=
  State.reset.enc.cnt = 0 ∧ State.reset.enc.b0 = 0x00 ∧ State.reset.enc.b1 = 0x00 ∧
  State.reset.dec.pos = 0 ∧ State.reset.dec.s0 = 0 ∧ State.reset.dec.s1 = 0 ∧ State.reset.dec.s2 = 0 ∧
  State.reset.dec.pad2 = false ∧ State.reset.dec.closed = false ∧ State.reset.dec.err.bits = 0 ∧
  State.reset.pins.encRspValid = false ∧ State.reset.pins.decRspValid = false

/-- The invariants of 10_state.md R32, which the spec derives by induction over commands, hold at reset. -/
def Obligations.InvariantHoldsAtReset : Prop := State.reset.Inv ∧ State.reset.pins.Shapes

/-- Every clock cycle keeps the invariants of 10_state.md R32 points 1 to 7, which the spec derives by induction over
commands. -/
def Obligations.StepKeepsTheInvariant : Prop := ∀ s t : State, s.Inv → step s = .next t → t.Inv

/-- From every state that meets the invariants a clock cycle answers a next state, whatever the inputs: no command is refused
(41_encoder.md R120, 60_exceptions.md R220), and it takes exactly one cycle of inputs. -/
def Obligations.StepNeverStopsUnderTheInvariant : Prop :=
  ∀ s : State, s.Inv → ∃ t, step s = .next t ∧ t.pending = s.pending.tail

/-- After every clock cycle, from any state, the response ports show only words of the shapes of 30_encoding.md R77, R78 and
R80. -/
def Obligations.StepShowsOnlyPossibleWords : Prop := ∀ s t : State, step s = .next t → t.pins.Shapes

/-- Every command with `last = 1` leaves its unit in the reset state, and no other instruction of the other unit or of the
ROM changes it (10_state.md R32 point 8). -/
def Obligations.EndOfMessageLeavesTheResetState : Prop :=
  ∀ (i : Instr) (s t : State), exec i s = .next t →
    ((i = .encFlush ∨ ∃ b, i = .encPushl b) → t.enc = State.reset.enc) ∧
    ((i = .decEnd ∨ ∃ c, i = .decPushl c) → t.dec = State.reset.dec) ∧
    (i.port ≠ .encCmd → t.enc = s.enc) ∧ (i.port ≠ .decCmd → t.dec = s.dec)

/-- The response and the next registers are a function of the registers and the command alone: two states with the same
registers give the same, whatever the ports showed and whatever inputs are to come (10_state.md R31). -/
def Obligations.ResponseDependsOnRegistersAndCommandOnly : Prop :=
  ∀ (i : Instr) (s s' t : State), s.enc = s'.enc → s.dec = s'.dec → exec i s = .next t →
    ∃ t', exec i s' = .next t' ∧ t'.enc = t.enc ∧ t'.dec = t.dec ∧
      (i.port = .encCmd → t'.pins.encRspValid = t.pins.encRspValid ∧ t'.pins.encRsp = t.pins.encRsp) ∧
      (i.port = .decCmd → t'.pins.decRspValid = t.pins.decRspValid ∧ t'.pins.decRsp = t.pins.decRsp)

/-! The step -/

/-- When the next cycle presents a word on its port with the response side ready, and the word decodes to an instruction, the
step is that instruction's `exec`, on the state without that cycle and with the ports begun. For the two command ports this
is 30_encoding.md R75. For the two internal ROM ports it is the model's choice of log entry 5, since R74 and R85 give the
host no such port. The second clause says it of the host's `withFetchWord`, which stands for the host presenting a word (the
model's choice of log entry 15), on the port the model takes (the model's choice of log entry 12). -/
def Obligations.StepRunsTheDecodedInstruction : Prop :=
  (∀ (p : PortWord) (i : Instr) (s : State) (cs : List Cycle), decodeWord p = .ok i → i.wellFormed = true →
    step { s with pending := cycleOf p :: cs } = exec i ({ s with pending := cs }.beginCycle Cycle.ready)) ∧
  (∀ (nbits w : Nat) (i : Instr) (s : State), decodeTableWord nbits w = some i →
    step (s.withFetchWord nbits w) = exec i (s.beginCycle Cycle.ready))

/-- The handshake of one cycle, for each unit: ready, fire, the response of the presented command on the registers before the
edge, and the registers after it (30_encoding.md R75). That the response is shown in a stalled cycle too, with `rsp_ready =
0`, is the reading of log entry 10 (DEDUCED, unsafe): R75 gives it, 95_test_vectors.md P11 says `enc_rsp_valid = 0` there. -/
def Obligations.HandshakeGovernsEachUnit : Prop :=
  ∀ (c : Cycle) (s t : State), clock c s = .next t →
    t.pins.encCmdReady = (c.encRspReady && !c.rst) ∧ t.pins.decCmdReady = (c.decRspReady && !c.rst) ∧
    (c.encCmdValid = true → c.rst = false → ∃ u, exec (decodeEnc c.encCmd) s = .next u ∧
      t.pins.encRspValid = u.pins.encRspValid ∧ t.pins.encRsp = u.pins.encRsp ∧
      t.enc = if c.encRspReady then u.enc else s.enc) ∧
    (c.encCmdValid = false ∨ c.rst = true → t.pins.encRspValid = false ∧ t.pins.encRsp = 0 ∧
      t.enc = if c.rst then ⟨0, 0, 0⟩ else s.enc) ∧
    (c.decCmdValid = true → c.rst = false → ∃ u, exec (decodeDec c.decCmd) s = .next u ∧
      t.pins.decRspValid = u.pins.decRspValid ∧ t.pins.decRsp = u.pins.decRsp ∧
      t.dec = if c.decRspReady then u.dec else s.dec) ∧
    (c.decCmdValid = false ∨ c.rst = true → t.pins.decRspValid = false ∧ t.pins.decRsp = 0 ∧
      t.dec = if c.rst then ⟨0, 0, 0, 0, false, false, .ok⟩ else s.dec)

/-- A rising edge with `rst = 1`, from any legal or illegal register contents and whatever the command ports carry: every
register takes its reset value, no command is accepted, no response is valid, and the next cycle with `rst = 0` can accept a
command (70_reset_and_hazards.md R260). -/
def Obligations.ResetEdgeClearsBothUnits : Prop :=
  ∀ (c : Cycle) (cs : List Cycle) (s : State), c.rst = true → ∃ t, step { s with pending := c :: cs } = .next t ∧
    t.enc = ⟨0, 0, 0⟩ ∧ t.dec = ⟨0, 0, 0, 0, false, false, .ok⟩ ∧ t.pending = cs ∧
    t.pins.encCmdReady = false ∧ t.pins.decCmdReady = false ∧
    t.pins.encRspValid = false ∧ t.pins.decRspValid = false ∧ t.pins.encRsp = 0 ∧ t.pins.decRsp = 0 ∧
    (∀ (c' : Cycle) (t' : State), c'.rst = false → clock c' t = .next t' →
      t'.pins.encCmdReady = c'.encRspReady ∧ t'.pins.decCmdReady = c'.decRspReady)

/-- A unit to which no command fires holds its registers for any number of cycles (60_exceptions.md R238, 30_encoding.md
R75). -/
def Obligations.UnitsHoldWhileNothingFires : Prop :=
  ∀ (n : Nat) (s : State) (ts : List State), runCycles n s = some ts → (∀ c ∈ s.pending, c.rst = false) →
    ((∀ c ∈ s.pending, c.encCmdValid = false ∨ c.encRspReady = false) → ∀ t ∈ ts, t.enc = s.enc) ∧
    ((∀ c ∈ s.pending, c.decCmdValid = false ∨ c.decRspReady = false) → ∀ t ∈ ts, t.dec = s.dec)

/-- An encoder command and a decoder command may run in either order: the same next state, or the same refusal (20_memory.md
R59 point 3). -/
def Obligations.UnitsCommute : Prop :=
  ∀ (i j : Instr) (s : State), i.port = .encCmd → j.port = .decCmd →
    andThen (exec i s) (exec j) = andThen (exec j s) (exec i)

/-- Two runs alike in the encoder's registers and in the inputs that reach the encoder show the same encoder registers and
encoder ports in every cycle, whatever the decoder holds and receives; and the same of the decoder (00_scope.md R10,
20_memory.md R59 point 3). -/
def Obligations.UnitsDoNotInterfere : Prop :=
  ∀ (n : Nat) (s s' : State) (ts ts' : List State), runCycles n s = some ts → runCycles n s' = some ts' →
    (s.enc = s'.enc → s.pending.map Cycle.encInputs = s'.pending.map Cycle.encInputs → List.Forall₂ sameEnc ts ts') ∧
    (s.dec = s'.dec → s.pending.map Cycle.decInputs = s'.pending.map Cycle.decInputs → List.Forall₂ sameDec ts ts')

/-! Messages -/

/-- `ENC.MSG B`, or `ENC.MSGL B` for a message that is not empty, with `NOP`s inserted anywhere, from the encoder's reset
state: it completes, the characters are `encode(B)`, the last response and only it has `last = 1`, and the encoder is in its
reset state afterwards (43_message_contract.md R192, which the spec derives from R124 to R127). -/
def Obligations.EncoderStreamGivesEncode : Prop :=
  ∀ (is : List Instr) (B : List Byte) (s : State), s.enc = ⟨0, 0, 0⟩ →
    (is.filter notNop = encMsg B ∨ ∃ B' x, B = B' ++ [x] ∧ is.filter notNop = encMsgl B' x) →
    ∃ ts, runCommands is s = some ts ∧ encMessages (ts.map (encEvent Cycle.ready)) = [encodeBytes B] ∧
      encEmitted ts = encodeBytes B ∧ endsOnce ((encBeats ts).map (·.last)) = true ∧
      (∀ t, ts.getLast? = some t → t.enc = ⟨0, 0, 0⟩)

/-- `DEC.MSG S`, or `DEC.MSGL S` for a message that is not empty, with `NOP`s inserted anywhere, from the decoder's reset
state: it completes, the status of the last response, and only that one has `last = 1`, is the result of `decode(S)`, the
bytes are those of the whole groups before the first violation, which is all of `decode(S)` where it succeeds, and the
decoder is in its reset state afterwards (43_message_contract.md R193, which the spec derives from 42_decoder.md R153 to
R157). -/
def Obligations.DecoderStreamGivesDecode : Prop :=
  ∀ (is : List Instr) (S : List Byte) (s : State), s.dec = ⟨0, 0, 0, 0, false, false, .ok⟩ →
    (is.filter notNop = decMsg S ∨ ∃ S' x, S = S' ++ [x] ∧ is.filter notNop = decMsgl S' x) →
    ∃ ts out, runCommands is s = some ts ∧ endsOnce ((decBeats ts).map (·.last)) = true ∧
      decMessages (ts.map (decEvent Cycle.ready)) = [{ output := out, verdict := statusOf (decodeText S) }] ∧
      decodeText (wholeGroups S) = .ok out ∧ (∀ B, decodeText S = .ok B → out = B) ∧
      (∀ t, ts.getLast? = some t → t.dec = ⟨0, 0, 0, 0, false, false, .ok⟩)

/-- The clocked encoder: over any cycles without reset in which the commands that fire at the encoder are a message, with
stalls of any length, `NOP`s and anything at the decoder between them, one message ends and its output is `encode(B)`
(43_message_contract.md R192; 70_reset_and_hazards.md R275, R276; 20_memory.md R59). -/
def Obligations.ClockedEncoderStream : Prop :=
  ∀ (B : List Byte) (s : State), s.enc = ⟨0, 0, 0⟩ → (∀ c ∈ s.pending, c.rst = false) →
    ((encFired s.pending).filter notNop = encMsg B ∨
      ∃ B' x, B = B' ++ [x] ∧ (encFired s.pending).filter notNop = encMsgl B' x) →
    ∃ ts, runCycles s.pending.length s = some ts ∧
      encMessages (List.zipWith encEvent s.pending ts) = [encodeBytes B] ∧ encEmitted ts = encodeBytes B ∧
      endsOnce ((encBeats ts).map (·.last)) = true ∧ (∀ t, ts.getLast? = some t → t.enc = ⟨0, 0, 0⟩)

/-- The clocked decoder: over any cycles without reset in which the commands that fire at the decoder are a message, with
stalls of any length, `NOP`s and anything at the encoder between them, one message ends, its verdict is that of `decode(S)`,
its output the bytes of the whole groups before the first violation, and where `decode` succeeds its result
(43_message_contract.md R193; 70_reset_and_hazards.md R275, R276). -/
def Obligations.ClockedDecoderStream : Prop :=
  ∀ (S : List Byte) (s : State), s.Inv → s.dec = ⟨0, 0, 0, 0, false, false, .ok⟩ → (∀ c ∈ s.pending, c.rst = false) →
    ((decFired s.pending).filter notNop = decMsg S ∨
      ∃ S' x, S = S' ++ [x] ∧ (decFired s.pending).filter notNop = decMsgl S' x) →
    ∃ ts out, runCycles s.pending.length s = some ts ∧ endsOnce ((decBeats ts).map (·.last)) = true ∧
      decMessages (List.zipWith decEvent s.pending ts) = [{ output := out, verdict := statusOf (decodeText S) }] ∧
      decodeText (wholeGroups S) = .ok out ∧ (∀ B, decodeText S = .ok B → out = B) ∧
      (∀ t, ts.getLast? = some t → t.dec = ⟨0, 0, 0, 0, false, false, .ok⟩)

/-- Round trip: `decode(encode(B)) = B` for every byte sequence, and the converse fails for some accepted string
(43_message_contract.md R194). -/
def Obligations.RoundTrip : Prop :=
  (∀ B : List Byte, decodeText (encodeBytes B) = .ok B) ∧ ∃ S B, decodeText S = .ok B ∧ encodeBytes B ≠ S

/-- `encode(B)` is alphabet characters, `ceil(n * 8 / 6)` of them, followed by exactly `(3 - n mod 3) mod 3` padding
characters, `4 * ceil(n / 3)` in all, and empty exactly for the empty input (43_message_contract.md R195, R196, R197; the
count of symbols is the one the spec derives in R202). -/
def Obligations.EncodeLengthAndPadding : Prop :=
  ∀ B : List Byte, (encodeBytes B).length = 4 * ((B.length + 2) / 3) ∧ ((encodeBytes B).length = 0 ↔ B = []) ∧
    ∃ X, encodeBytes B = X ++ List.replicate ((3 - B.length % 3) % 3) 0x3D ∧ (∀ c ∈ X, inAlphabet c) ∧
      X.length = (B.length * 8 + 5) / 6 ∧ (encodeBytes B).count 0x3D = (3 - B.length % 3) % 3

/-- `decode` fails with `MalformedLength` exactly when the length is no multiple of 4 (43_message_contract.md R198). -/
def Obligations.MalformedLengthExactly : Prop :=
  ∀ S : List Byte, (decodeText S = .error .malformedLength ↔ S.length % 4 ≠ 0) ∧
    (S.length % 4 = 1 → ∀ B, decodeText S ≠ .ok B)

/-- Every string `decode` accepts is alphabet characters followed by 0, 1 or 2 padding characters, of a length that is a
multiple of 4, and so is every output of `encode` (43_message_contract.md R200); the result has `3 * (n / 4)` bytes less the
number of padding characters, as the spec derives in 42_decoder.md R160. -/
def Obligations.AcceptedStrings : Prop :=
  (∀ S B : List Byte, decodeText S = .ok B → ∃ X k, S = X ++ List.replicate k 0x3D ∧ k ≤ 2 ∧ (∀ c ∈ X, inAlphabet c) ∧
    S.length % 4 = 0 ∧ B.length + k = 3 * (S.length / 4)) ∧
  (∀ B : List Byte, ∃ X k, encodeBytes B = X ++ List.replicate k 0x3D ∧ k ≤ 2 ∧ (∀ c ∈ X, inAlphabet c) ∧
    (encodeBytes B).length % 4 = 0)

/-- Priority among several faults of one message: the length first, else the fault of the lowest index, and class `INV`
before the padding structure at one index; without a fault the status is `OK` (60_exceptions.md R226, whose three points are
the spec's own reading, decision D12). -/
def Obligations.FaultPriority : Prop :=
  ∀ (S : List Byte) (s : State), s.dec = ⟨0, 0, 0, 0, false, false, .ok⟩ → ∃ ts m, runCommands (decMsg S) s = some ts ∧
    decMessages (ts.map (decEvent Cycle.ready)) = [m] ∧
    (S.length % 4 ≠ 0 → m.verdict = .malformedLength) ∧
    (∀ i, S.length % 4 = 0 → i < S.length → (∀ j < i, violationAt S j = none) →
      ((C2S (S.getD i 0)).1 = .inv → m.verdict = .invalidSymbol) ∧
      ((C2S (S.getD i 0)).1 ≠ .inv → violationAt S i ≠ none → m.verdict = .malformedPadding)) ∧
    (S.length % 4 = 0 → (∀ i < S.length, violationAt S i = none) → m.verdict = .ok)

/-- The source's concrete vectors: the six-byte vector as corrected by 90_conflicts.md C1, the all-ones vector, the empty
input, and the three failing strings (43_message_contract.md R198, R199; 95_test_vectors.md S4 to S9). -/
def Obligations.SourceVectors : Prop :=
  encodeBytes [0xA3, 0x05, 0x99, 0xCD, 0x81, 0x0F] = [0x6F, 0x77, 0x57, 0x5A, 0x7A, 0x59, 0x45, 0x50] ∧
  encodeBytes [0xFF, 0xFF, 0xFF, 0xFF, 0xFF, 0xFF] = [0x2F, 0x2F, 0x2F, 0x2F, 0x2F, 0x2F, 0x2F, 0x2F] ∧
  encodeBytes [] = [] ∧
  decodeText [0x41] = .error .malformedLength ∧
  decodeText [0x41, 0x42, 0x43, 0x44, 0x45] = .error .malformedLength ∧
  decodeText [0x41, 0x42, 0x23, 0x44] = .error .invalidSymbol

/-- The end of a run of a unit: a message ends at a response with `last = 1`. Its output is the concatenation of the element
lists of all responses since the previous `last = 1` or reset, that response included, its verdict that response's `status`,
and a message never ended by `last = 1` has neither (70_reset_and_hazards.md R276). -/
def Obligations.MessagesAreCutAtLastAndReset : Prop :=
  (∀ (pre mid post : List (Event EncRecord)) (r : EncRecord), r.last = true →
    (∀ e ∈ mid, e = .quiet ∨ ∃ q, e = .item q ∧ q.last = false) →
    (pre = [] ∨ pre.getLast? = some .reset ∨ ∃ q, pre.getLast? = some (.item q) ∧ q.last = true) →
    encMessages mid = [] ∧ encMessages (pre ++ mid) = encMessages pre ∧
    encMessages (pre ++ mid ++ .reset :: post) = encMessages pre ++ encMessages post ∧
    encMessages (pre ++ mid ++ .item r :: post) =
      encMessages pre ++ [(mid.flatMap fun e => match e with | .item q => q.chars | .quiet => [] | .reset => []) ++ r.chars] ++
        encMessages post) ∧
  (∀ (pre mid post : List (Event DecRecord)) (r : DecRecord), r.last = true →
    (∀ e ∈ mid, e = .quiet ∨ ∃ q, e = .item q ∧ q.last = false) →
    (pre = [] ∨ pre.getLast? = some .reset ∨ ∃ q, pre.getLast? = some (.item q) ∧ q.last = true) →
    decMessages mid = [] ∧ decMessages (pre ++ mid) = decMessages pre ∧
    decMessages (pre ++ mid ++ .reset :: post) = decMessages pre ++ decMessages post ∧
    decMessages (pre ++ mid ++ .item r :: post) =
      decMessages pre ++
        [{ output := (mid.flatMap fun e => match e with | .item q => q.bytes | .quiet => [] | .reset => []) ++ r.bytes,
           verdict := r.status }] ++
        decMessages post)

/-- Any run of clock cycles from the reset registers, whatever the host does: stalls, `NOP`s, both units at once, several
messages, resets that abandon a message, and a message left unfinished. The encoder messages that end are `encode` of the
messages sent to the encoder, in order; the decoder messages that end have, in order, the verdict of `decode` of the messages
sent to the decoder, the bytes of their whole groups before the first violation, and where `decode` succeeds its result
(43_message_contract.md R192, R193; 70_reset_and_hazards.md R262, R264 to R266, R275, R276; 00_scope.md R9). Cycles past the
host's inputs are idle (log entry 4). -/
def Obligations.EveryRunGivesItsMessages : Prop :=
  ∀ (n : Nat) (s : State), s.enc = ⟨0, 0, 0⟩ → s.dec = ⟨0, 0, 0, 0, false, false, .ok⟩ →
    ∃ ts, runCycles n s = some ts ∧
      encMessages (List.zipWith encEvent (s.inputs n) ts) = (sentMessages ((s.inputs n).map encSent)).map encodeBytes ∧
      List.Forall₂
        (fun S m => m.verdict = statusOf (decodeText S) ∧ decodeText (wholeGroups S) = .ok m.output ∧
          (∀ B, decodeText S = .ok B → m.output = B))
        (sentMessages ((s.inputs n).map decSent)) (decMessages (List.zipWith decEvent (s.inputs n) ts))
end

