-- ==== Sys2Proof/Laws/Message.lean ====
section
/-! SUPPORT. What each item of a run does to the messages that end in it, and what a cycle is to a unit's messages. -/

namespace Sys2Proof.Machine

@[simp] theorem endedFrom_nil {R : Type} (last : R → Bool) (acc : List R) : endedFrom last acc [] = [] := by
  cases acc <;> rfl

@[simp] theorem endedFrom_quiet {R : Type} (last : R → Bool) (acc : List R) (es : List (Event R)) :
    endedFrom last acc (.quiet :: es) = endedFrom last acc es := by
  cases acc <;> rfl

@[simp] theorem endedFrom_reset {R : Type} (last : R → Bool) (acc : List R) (es : List (Event R)) :
    endedFrom last acc (.reset :: es) = endedFrom last [] es := by
  cases acc <;> rfl

theorem endedFrom_item {R : Type} (last : R → Bool) (acc : List R) (r : R) (es : List (Event R)) :
    endedFrom last acc (.item r :: es) =
      if last r then (acc, r) :: endedFrom last [] es else endedFrom last (acc ++ [r]) es := by
  cases acc <;> rfl

/-- The items a list of events leaves unfinished, when `acc` was unfinished before it. -/
def openAfter {R : Type} (last : R → Bool) : List R → List (Event R) → List R
  | acc, [] => acc
  | acc, .quiet :: es => openAfter last acc es
  | acc, .item r :: es => if last r then openAfter last [] es else openAfter last (acc ++ [r]) es
  | _, .reset :: es => openAfter last [] es

/-- The messages of one run after another: those of the first, then those of the second with what the first left unfinished. -/
theorem endedFrom_append {R : Type} (last : R → Bool) (es fs : List (Event R)) (acc : List R) :
    endedFrom last acc (es ++ fs) = endedFrom last acc es ++ endedFrom last (openAfter last acc es) fs := by
  induction es generalizing acc with
  | nil => simp [openAfter]
  | cons e es ih =>
    cases e with
    | quiet => simp [openAfter, ih]
    | reset => simp [openAfter, ih]
    | item r => cases h : last r <;> simp [endedFrom_item, openAfter, h, ih]

@[simp] theorem eventOf_rst {R : Type} (r : Option R) : eventOf true r = .reset := rfl

@[simp] theorem eventOf_none {R : Type} : eventOf (R := R) false none = .quiet := rfl

@[simp] theorem eventOf_some {R : Type} (r : R) : eventOf false (some r) = .item r := rfl

@[simp] theorem State.inputs_zero (s : State) : s.inputs 0 = [] := rfl

@[simp] theorem State.inputs_succ (s : State) (n : Nat) :
    s.inputs (n + 1) = s.takeCycle.1 :: s.takeCycle.2.inputs n := rfl

/-- The inputs to come depend on `pending` alone. -/
theorem State.inputs_congr (n : Nat) {s t : State} (h : s.pending = t.pending) : s.inputs n = t.inputs n := by
  induction n generalizing s t with
  | zero => rfl
  | succ n ih =>
    have key : s.takeCycle.1 = t.takeCycle.1 ∧ s.takeCycle.2.pending = t.takeCycle.2.pending := by
      unfold State.takeCycle
      rw [← h]
      cases hp : s.pending <;> simp_all
    simp only [State.inputs_succ, key.1, ih key.2]

end Sys2Proof.Machine
end

