-- ==== Sys2Proof/Laws/State.lean ====
section
/-! SUPPORT. One lemma per field per update of the state, each true by unfolding, so that no later proof unfolds a record
update. -/

namespace Sys2Proof.Machine

section Updates
variable (s : State) (e : EncRegs) (d : DecRegs) (r : EncRecord) (q : DecRecord) (b : Byte) (c : Cycle)

@[simp] theorem State.setEnc_enc : (s.setEnc e).enc = e := rfl
@[simp] theorem State.setEnc_dec : (s.setEnc e).dec = s.dec := rfl
@[simp] theorem State.setEnc_pins : (s.setEnc e).pins = s.pins := rfl
@[simp] theorem State.setEnc_pending : (s.setEnc e).pending = s.pending := rfl

@[simp] theorem State.setDec_enc : (s.setDec d).enc = s.enc := rfl
@[simp] theorem State.setDec_dec : (s.setDec d).dec = d := rfl
@[simp] theorem State.setDec_pins : (s.setDec d).pins = s.pins := rfl
@[simp] theorem State.setDec_pending : (s.setDec d).pending = s.pending := rfl

@[simp] theorem State.respondEnc_enc : (s.respondEnc r).enc = s.enc := rfl
@[simp] theorem State.respondEnc_dec : (s.respondEnc r).dec = s.dec := rfl
@[simp] theorem State.respondEnc_pending : (s.respondEnc r).pending = s.pending := rfl
@[simp] theorem State.respondEnc_encCmdReady : (s.respondEnc r).pins.encCmdReady = s.pins.encCmdReady := rfl
@[simp] theorem State.respondEnc_encRspValid : (s.respondEnc r).pins.encRspValid = r.nonnull := rfl
@[simp] theorem State.respondEnc_encRsp : (s.respondEnc r).pins.encRsp = if r.nonnull then r.pack else 0 := rfl
@[simp] theorem State.respondEnc_decCmdReady : (s.respondEnc r).pins.decCmdReady = s.pins.decCmdReady := rfl
@[simp] theorem State.respondEnc_decRspValid : (s.respondEnc r).pins.decRspValid = s.pins.decRspValid := rfl
@[simp] theorem State.respondEnc_decRsp : (s.respondEnc r).pins.decRsp = s.pins.decRsp := rfl
@[simp] theorem State.respondEnc_symData : (s.respondEnc r).pins.symData = s.pins.symData := rfl
@[simp] theorem State.respondEnc_chrData : (s.respondEnc r).pins.chrData = s.pins.chrData := rfl

@[simp] theorem State.respondDec_enc : (s.respondDec q).enc = s.enc := rfl
@[simp] theorem State.respondDec_dec : (s.respondDec q).dec = s.dec := rfl
@[simp] theorem State.respondDec_pending : (s.respondDec q).pending = s.pending := rfl
@[simp] theorem State.respondDec_encCmdReady : (s.respondDec q).pins.encCmdReady = s.pins.encCmdReady := rfl
@[simp] theorem State.respondDec_encRspValid : (s.respondDec q).pins.encRspValid = s.pins.encRspValid := rfl
@[simp] theorem State.respondDec_encRsp : (s.respondDec q).pins.encRsp = s.pins.encRsp := rfl
@[simp] theorem State.respondDec_decCmdReady : (s.respondDec q).pins.decCmdReady = s.pins.decCmdReady := rfl
@[simp] theorem State.respondDec_decRspValid : (s.respondDec q).pins.decRspValid = q.nonnull := rfl
@[simp] theorem State.respondDec_decRsp : (s.respondDec q).pins.decRsp = if q.nonnull then q.pack else 0 := rfl
@[simp] theorem State.respondDec_symData : (s.respondDec q).pins.symData = s.pins.symData := rfl
@[simp] theorem State.respondDec_chrData : (s.respondDec q).pins.chrData = s.pins.chrData := rfl

@[simp] theorem State.showSym_enc : (s.showSym b).enc = s.enc := rfl
@[simp] theorem State.showSym_dec : (s.showSym b).dec = s.dec := rfl
@[simp] theorem State.showSym_pending : (s.showSym b).pending = s.pending := rfl
@[simp] theorem State.showSym_pins : (s.showSym b).pins = { s.pins with symData := some b } := rfl

@[simp] theorem State.showChr_enc : (s.showChr b).enc = s.enc := rfl
@[simp] theorem State.showChr_dec : (s.showChr b).dec = s.dec := rfl
@[simp] theorem State.showChr_pending : (s.showChr b).pending = s.pending := rfl
@[simp] theorem State.showChr_pins : (s.showChr b).pins = { s.pins with chrData := some b } := rfl

@[simp] theorem State.beginCycle_enc : (s.beginCycle c).enc = s.enc := rfl
@[simp] theorem State.beginCycle_dec : (s.beginCycle c).dec = s.dec := rfl
@[simp] theorem State.beginCycle_pending : (s.beginCycle c).pending = s.pending := rfl
@[simp] theorem State.beginCycle_encCmdReady : (s.beginCycle c).pins.encCmdReady = (c.encRspReady && !c.rst) := rfl
@[simp] theorem State.beginCycle_encRspValid : (s.beginCycle c).pins.encRspValid = false := rfl
@[simp] theorem State.beginCycle_encRsp : (s.beginCycle c).pins.encRsp = 0 := rfl
@[simp] theorem State.beginCycle_decCmdReady : (s.beginCycle c).pins.decCmdReady = (c.decRspReady && !c.rst) := rfl
@[simp] theorem State.beginCycle_decRspValid : (s.beginCycle c).pins.decRspValid = false := rfl
@[simp] theorem State.beginCycle_decRsp : (s.beginCycle c).pins.decRsp = 0 := rfl
@[simp] theorem State.beginCycle_symData : (s.beginCycle c).pins.symData = none := rfl
@[simp] theorem State.beginCycle_chrData : (s.beginCycle c).pins.chrData = none := rfl

@[simp] theorem State.resetEdge_true : s.resetEdge true = { s with enc := EncRegs.reset, dec := DecRegs.reset } := rfl
@[simp] theorem State.resetEdge_false : s.resetEdge false = s := rfl
@[simp] theorem State.resetEdge_pins (b : Bool) : (s.resetEdge b).pins = s.pins := by cases b <;> rfl
@[simp] theorem State.resetEdge_pending (b : Bool) : (s.resetEdge b).pending = s.pending := by cases b <;> rfl

@[simp] theorem DecRegs.advance_pos : d.advance.pos = d.pos + 1 := rfl
@[simp] theorem DecRegs.advance_s0 : d.advance.s0 = d.s0 := rfl
@[simp] theorem DecRegs.advance_s1 : d.advance.s1 = d.s1 := rfl
@[simp] theorem DecRegs.advance_s2 : d.advance.s2 = d.s2 := rfl
@[simp] theorem DecRegs.advance_pad2 : d.advance.pad2 = d.pad2 := rfl
@[simp] theorem DecRegs.advance_closed : d.advance.closed = d.closed := rfl
@[simp] theorem DecRegs.advance_err : d.advance.err = d.err := rfl

variable (k : Code)

@[simp] theorem DecRegs.raise_pos : (d.raise k).pos = d.pos := rfl
@[simp] theorem DecRegs.raise_s0 : (d.raise k).s0 = d.s0 := rfl
@[simp] theorem DecRegs.raise_s1 : (d.raise k).s1 = d.s1 := rfl
@[simp] theorem DecRegs.raise_s2 : (d.raise k).s2 = d.s2 := rfl
@[simp] theorem DecRegs.raise_pad2 : (d.raise k).pad2 = d.pad2 := rfl
@[simp] theorem DecRegs.raise_closed : (d.raise k).closed = d.closed := rfl
@[simp] theorem DecRegs.raise_err : (d.raise k).err = k := rfl

@[simp] theorem DecRegs.endMessage_fst : d.endMessage.1 = DecRegs.reset := rfl
@[simp] theorem DecRegs.endMessage_snd : d.endMessage.2 = d.endStatus := rfl

end Updates

section Reset

@[simp] theorem EncRegs.reset_cnt : EncRegs.reset.cnt = 0 := rfl
@[simp] theorem EncRegs.reset_b0 : EncRegs.reset.b0 = 0 := rfl
@[simp] theorem EncRegs.reset_b1 : EncRegs.reset.b1 = 0 := rfl
@[simp] theorem DecRegs.reset_pos : DecRegs.reset.pos = 0 := rfl
@[simp] theorem DecRegs.reset_s0 : DecRegs.reset.s0 = 0 := rfl
@[simp] theorem DecRegs.reset_s1 : DecRegs.reset.s1 = 0 := rfl
@[simp] theorem DecRegs.reset_s2 : DecRegs.reset.s2 = 0 := rfl
@[simp] theorem DecRegs.reset_pad2 : DecRegs.reset.pad2 = false := rfl
@[simp] theorem DecRegs.reset_closed : DecRegs.reset.closed = false := rfl
@[simp] theorem DecRegs.reset_err : DecRegs.reset.err = .ok := rfl

end Reset

end Sys2Proof.Machine
end

