-- ==== Sys2Proof/Laws/Operands.lean ====
section
/-! SUPPORT. Response records and their words: which records are null, and that reading a packed word gives the record
back. -/

namespace Sys2Proof

/-- A 2-bit value is one of four; a case split that needs no arithmetic. -/
theorem two_bit_cases (x : BitVec 2) : x = 0 ∨ x = 1 ∨ x = 2 ∨ x = 3 := by
  revert x; decide

@[simp] theorem Code.ofBits_bits (k : Code) : Code.ofBits k.bits = k := by cases k <;> decide

@[simp] theorem Code.bits_ofBits (b : BitVec 2) : (Code.ofBits b).bits = b := by
  revert b; decide

theorem Code.bits_eq_zero (k : Code) : k.bits = 0 ↔ k = .ok := by cases k <;> decide

@[simp] theorem EncRecord.nonnull_nil (l : Bool) : (EncRecord.mk [] l).nonnull = l := rfl
@[simp] theorem EncRecord.nonnull_cons (c : Byte) (cs : List Byte) (l : Bool) : (EncRecord.mk (c :: cs) l).nonnull = true := rfl
@[simp] theorem DecRecord.nonnull_nil (l : Bool) (k : Code) : (DecRecord.mk [] l k).nonnull = l := rfl
@[simp] theorem DecRecord.nonnull_cons (b : Byte) (bs : List Byte) (l : Bool) (k : Code) :
    (DecRecord.mk (b :: bs) l k).nonnull = true := rfl

end Sys2Proof

namespace Sys2Proof.Machine

section Lanes
variable (l h : Bool) (c0 c1 c2 c3 : Byte)

@[simp] theorem erspWord_last : (erspWord l h c0 c1 c2 c3)[33] = l := by
  rw [← BitVec.getLsbD_eq_getElem]
  simp only [erspWord, BitVec.getLsbD_append]
  simp
@[simp] theorem erspWord_hasChars : (erspWord l h c0 c1 c2 c3)[32] = h := by
  rw [← BitVec.getLsbD_eq_getElem]
  simp only [erspWord, BitVec.getLsbD_append]
  simp

@[simp] theorem erspWord_lane0 : (erspWord l h c0 c1 c2 c3).extractLsb' 0 8 = c0 := by
  ext i hi
  simp only [erspWord, BitVec.getElem_extractLsb', BitVec.getLsbD_append]
  interval_cases i <;> simp

@[simp] theorem erspWord_lane1 : (erspWord l h c0 c1 c2 c3).extractLsb' 8 8 = c1 := by
  ext i hi
  simp only [erspWord, BitVec.getElem_extractLsb', BitVec.getLsbD_append]
  interval_cases i <;> simp

@[simp] theorem erspWord_lane2 : (erspWord l h c0 c1 c2 c3).extractLsb' 16 8 = c2 := by
  ext i hi
  simp only [erspWord, BitVec.getElem_extractLsb', BitVec.getLsbD_append]
  interval_cases i <;> simp

@[simp] theorem erspWord_lane3 : (erspWord l h c0 c1 c2 c3).extractLsb' 24 8 = c3 := by
  ext i hi
  simp only [erspWord, BitVec.getElem_extractLsb', BitVec.getLsbD_append]
  interval_cases i <;> simp

@[simp] theorem erspWord_noChars : (erspWord l h 0#8 0#8 0#8 0#8).extractLsb' 0 32 = 0#32 := by
  cases l <;> cases h <;> decide

variable (k : Code) (n : BitVec 2)

@[simp] theorem drspWord_status : (drspWord k l n c0 c1 c2).extractLsb' 27 2 = k.bits := by
  ext i hi
  simp only [drspWord, BitVec.getElem_extractLsb', BitVec.getLsbD_append]
  interval_cases i <;> simp

@[simp] theorem drspWord_last : (drspWord k l n c0 c1 c2)[26] = l := by
  rw [← BitVec.getLsbD_eq_getElem]
  simp only [drspWord, BitVec.getLsbD_append]
  simp

@[simp] theorem drspWord_count : (drspWord k l n c0 c1 c2).extractLsb' 24 2 = n := by
  ext i hi
  simp only [drspWord, BitVec.getElem_extractLsb', BitVec.getLsbD_append]
  interval_cases i <;> simp

@[simp] theorem drspWord_lane0 : (drspWord k l n c0 c1 c2).extractLsb' 0 8 = c0 := by
  ext i hi
  simp only [drspWord, BitVec.getElem_extractLsb', BitVec.getLsbD_append]
  interval_cases i <;> simp

@[simp] theorem drspWord_lane1 : (drspWord k l n c0 c1 c2).extractLsb' 8 8 = c1 := by
  ext i hi
  simp only [drspWord, BitVec.getElem_extractLsb', BitVec.getLsbD_append]
  interval_cases i <;> simp

@[simp] theorem drspWord_lane2 : (drspWord k l n c0 c1 c2).extractLsb' 16 8 = c2 := by
  ext i hi
  simp only [drspWord, BitVec.getElem_extractLsb', BitVec.getLsbD_append]
  interval_cases i <;> simp

end Lanes

/-- Reading the packed word of an encoder record of a possible shape gives the record back. -/
theorem unpackErsp_pack (r : EncRecord) (h : r.wellFormed = true) : unpackErsp r.pack = some r := by
  obtain ⟨chars, last⟩ := r
  rcases chars with _ | ⟨c0, _ | ⟨c1, _ | ⟨c2, _ | ⟨c3, _ | ⟨c4, rest⟩⟩⟩⟩⟩
  case nil => simp [EncRecord.pack, unpackErsp]
  case cons.cons.cons.cons.nil => simp [EncRecord.pack, unpackErsp]
  all_goals simp [EncRecord.wellFormed] at h

/-- The bytes of a packed decoder record of at most 3 bytes are its bytes. -/
theorem drspBytes_pack (r : DecRecord) (h : r.bytes.length ≤ 3) : drspBytes r.pack = r.bytes := by
  obtain ⟨bytes, last, status⟩ := r
  rcases bytes with _ | ⟨b0, _ | ⟨b1, _ | ⟨b2, _ | ⟨b3, rest⟩⟩⟩⟩
  case cons.cons.cons.cons => simp at h; omega
  all_goals simp [DecRecord.pack, drspBytes, drspCount]

@[simp] theorem DecRecord.pack_last (r : DecRecord) : r.pack[26] = r.last := by
  unfold DecRecord.pack; split <;> simp

@[simp] theorem DecRecord.pack_status (r : DecRecord) : drspStatus r.pack = r.status := by
  unfold DecRecord.pack drspStatus; split <;> simp

/-- Reading the packed word of a decoder record of a possible shape gives the record back. -/
theorem unpackDrsp_pack (r : DecRecord) (h : r.wellFormed = true) : unpackDrsp r.pack = some r := by
  have h3 : r.bytes.length ≤ 3 := by simp [DecRecord.wellFormed] at h; omega
  have e : DecRecord.mk (drspBytes r.pack) (r.pack[26]) (drspStatus r.pack) = r := by
    rw [drspBytes_pack r h3, DecRecord.pack_last, DecRecord.pack_status]
  simp only [unpackDrsp, e, h, Bool.true_and, beq_self_eq_true, if_true]

end Sys2Proof.Machine
end

