-- ==== Sys2Proof/Laws/Ops.lean ====
section
/-! SUPPORT. What the shared operations and the units' instructions can do, each said once: the character step, an encoder
instruction, a decoder instruction, a ROM read, a presented command and a clock cycle. -/

namespace Sys2Proof.Machine

theorem andThen_eq_next {o : Host.Outcome State Fault Refusal} {f : State → Host.Outcome State Fault Refusal} {t : State} :
    andThen o f = .next t ↔ ∃ s, o = .next s ∧ f s = .next t := by
  cases o <;> simp [andThen]

@[simp] theorem andThen_next (s : State) (f : State → Host.Outcome State Fault Refusal) : andThen (.next s) f = f s := rfl

@[simp] theorem nextState?_next (s : State) : nextState? (.next s) = some s := rfl

/-- The six ways through the character step (42_decoder.md R153). -/
theorem DecRegs.char_cases (d : DecRegs) (c : Byte) :
    (d.err ≠ .ok ∧ d.char c = (d.advance, [])) ∨
    (d.err = .ok ∧ (C2S c).1 = .inv ∧ d.char c = (d.advance.raise .invalidSymbol, [])) ∨
    (d.err = .ok ∧ (C2S c).1 = .sym ∧ d.afterPadding = true ∧ d.char c = (d.advance.raise .malformedPadding, [])) ∨
    (d.err = .ok ∧ (C2S c).1 = .sym ∧ d.afterPadding = false ∧ d.char c = d.acceptSym (C2S c).2) ∨
    (d.err = .ok ∧ (C2S c).1 = .pad ∧ d.padMisplaced = true ∧ d.char c = (d.advance.raise .malformedPadding, [])) ∨
    (d.err = .ok ∧ (C2S c).1 = .pad ∧ d.padMisplaced = false ∧ d.char c = d.acceptPad) := by
  unfold DecRegs.char
  by_cases h : d.err = .ok
  · rcases e : C2S c with ⟨k, v⟩
    cases k <;> simp [h]
    · cases d.afterPadding <;> simp
    · cases d.padMisplaced <;> simp
  · simp [h]

/-- The character step emits at most 3 bytes, and none where it leaves an error or an unfinished group. -/
theorem DecRegs.char_out (d : DecRegs) (c : Byte) :
    (d.char c).2.length ≤ 3 ∧ ((d.char c).2 ≠ [] → (d.char c).1.pos = 0 ∧ (d.char c).1.err = .ok) := by
  rcases d.char_cases c with ⟨-, h⟩ | ⟨-, -, h⟩ | ⟨-, -, -, h⟩ | ⟨he, -, -, h⟩ | ⟨-, -, -, h⟩ | ⟨he, -, hm, h⟩ <;> rw [h]
  case inl | inr.inl | inr.inr.inl | inr.inr.inr.inr.inl => simp
  · rcases Sys2Proof.two_bit_cases d.pos with hp | hp | hp | hp <;>
      simp [DecRegs.acceptSym, hp, DecRegs.completeGroup, he, bytes3]
  · simp only [DecRegs.padMisplaced, Bool.or_eq_false_iff] at hm
    obtain ⟨-, hm⟩ := hm
    rcases Sys2Proof.two_bit_cases d.pos with hp | hp | hp | hp <;> cases hb : d.pad2 <;>
      simp_all [DecRegs.acceptPad, DecRegs.completeGroup, bytes2, bytes1]

/-- An encoder instruction's effect is fixed by the encoder's registers: it stops, or it writes these registers and responds
with this record, whatever the rest of the state. -/
theorem exec_encCmd (i : Instr) (hi : i.port = .encCmd) (e : EncRegs) :
    (e.cnt = 3 ∧ ∀ s : State, s.enc = e → exec i s = .refused .encCountUnreachable) ∨
    ∃ e' r, r.wellFormed = true ∧ ∀ s : State, s.enc = e → exec i s = .next ((s.setEnc e').respondEnc r) := by
  have hc := Sys2Proof.two_bit_cases e.cnt
  cases i <;> simp [Instr.port] at hi
  case encNop => exact .inr ⟨e, ⟨[], false⟩, rfl, fun s h => by subst h; rfl⟩
  case encPush b =>
    rcases hc with h | h | h | h
    · exact .inr ⟨⟨1, b, e.b1⟩, ⟨[], false⟩, rfl, fun s hs => by subst hs; simp [exec, execEncPush, h]⟩
    · exact .inr ⟨⟨2, e.b0, b⟩, ⟨[], false⟩, rfl, fun s hs => by subst hs; simp [exec, execEncPush, h]⟩
    · exact .inr ⟨EncRegs.reset, ⟨charsFull e.b0 e.b1 b, false⟩, rfl, fun s hs => by subst hs; simp [exec, execEncPush, h]; rfl⟩
    · exact .inl ⟨h, fun s hs => by subst hs; simp [exec, execEncPush, h]⟩
  case encFlush =>
    rcases hc with h | h | h | h
    · exact .inr ⟨EncRegs.reset, ⟨[], true⟩, rfl, fun s hs => by subst hs; simp [exec, execEncFlush, h]; rfl⟩
    · exact .inr ⟨EncRegs.reset, ⟨charsTail1 e.b0, true⟩, rfl, fun s hs => by subst hs; simp [exec, execEncFlush, h]; rfl⟩
    · exact .inr ⟨EncRegs.reset, ⟨charsTail2 e.b0 e.b1, true⟩, rfl, fun s hs => by subst hs; simp [exec, execEncFlush, h]; rfl⟩
    · exact .inl ⟨h, fun s hs => by subst hs; simp [exec, execEncFlush, h]⟩
  case encPushl b =>
    rcases hc with h | h | h | h
    · exact .inr ⟨EncRegs.reset, ⟨charsTail1 b, true⟩, rfl, fun s hs => by subst hs; simp [exec, execEncPushl, h]; rfl⟩
    · exact .inr ⟨EncRegs.reset, ⟨charsTail2 e.b0 b, true⟩, rfl, fun s hs => by subst hs; simp [exec, execEncPushl, h]; rfl⟩
    · exact .inr ⟨EncRegs.reset, ⟨charsFull e.b0 e.b1 b, true⟩, rfl, fun s hs => by subst hs; simp [exec, execEncPushl, h]; rfl⟩
    · exact .inl ⟨h, fun s hs => by subst hs; simp [exec, execEncPushl, h]⟩

/-- A decoder instruction's effect is fixed by the decoder's registers; it never stops (60_exceptions.md R220). -/
theorem exec_decCmd (i : Instr) (hi : i.port = .decCmd) (d : DecRegs) :
    ∃ d' r, r.wellFormed = true ∧ ∀ s : State, s.dec = d → exec i s = .next ((s.setDec d').respondDec r) := by
  cases i <;> simp [Instr.port] at hi
  case decNop => exact ⟨d, ⟨[], false, .ok⟩, rfl, fun s h => by subst h; rfl⟩
  case decPush c =>
    have h3 := (d.char_out c).1
    refine ⟨(d.char c).1, ⟨(d.char c).2, false, .ok⟩, by simp [DecRecord.wellFormed, h3], fun s h => by subst h; rfl⟩
  case decEnd =>
    exact ⟨DecRegs.reset, ⟨[], true, d.endStatus⟩, by simp [DecRecord.wellFormed], fun s h => by subst h; rfl⟩
  case decPushl c =>
    have h3 := d.char_out c
    refine ⟨DecRegs.reset, ⟨(d.char c).2, true, (d.char c).1.endStatus⟩, ?_, fun s h => by subst h; rfl⟩
    by_cases ho : (d.char c).2 = []
    · simp [DecRecord.wellFormed, ho]
    · obtain ⟨hp, he⟩ := h3.2 ho
      simp [DecRecord.wellFormed, DecRegs.endStatus, hp, he, h3.1]

/-- A bare ROM read shows an entry and changes nothing else. -/
@[simp] theorem exec_lutS2c (v : Sym) (s : State) : exec (.lutS2c v) s = .next (s.showSym (memReadSym v)) := rfl

/-- A bare ROM read shows an entry and changes nothing else. -/
@[simp] theorem exec_lutC2s (c : Byte) (s : State) : exec (.lutC2s c) s = .next (s.showChr (memReadChr c)) := rfl

@[simp] theorem present_none (r : Bool) (s : State) : present none r s = .next s := rfl

@[simp] theorem present_ready (i : Instr) (s : State) : present (some i) true s = exec i s := by
  simp only [present, if_true]
  cases exec i s <;> rfl

theorem present_stalled (i : Instr) (s : State) :
    present (some i) false s = andThen (exec i s) fun t => .next { s with pins := t.pins } := rfl

/-- The instruction presented to the encoder is one of the encoder's. -/
theorem encPresented_port {c : Cycle} {i : Instr} (h : c.encPresented = some i) : i.port = .encCmd := by
  unfold Cycle.encPresented at h
  split at h
  · obtain rfl := Option.some.inj h
    unfold decodeEnc; split <;> rfl
  · exact absurd h (by simp)

/-- The instruction presented to the decoder is one of the decoder's. -/
theorem decPresented_port {c : Cycle} {i : Instr} (h : c.decPresented = some i) : i.port = .decCmd := by
  unfold Cycle.decPresented at h
  split at h
  · obtain rfl := Option.some.inj h
    unfold decodeDec; split <;> rfl
  · exact absurd h (by simp)

/-- The two bare ROM reads of a cycle, then the reset edge, never stop. -/
theorem clock_tail (c : Cycle) (s : State) :
    (andThen (present c.symRead true s) fun s3 => andThen (present c.chrRead true s3) fun s4 => .next (s4.resetEdge c.rst)) =
      .next (State.resetEdge { s with pins := { s.pins with
        symData := match c.symAddr with | some v => some (memReadSym v) | none => s.pins.symData
        chrData := match c.chrAddr with | some a => some (memReadChr a) | none => s.pins.chrData } } c.rst) := by
  unfold Cycle.symRead Cycle.chrRead
  cases c.symAddr <;> cases c.chrAddr <;> simp [State.showSym, State.showChr]

/-- What a cycle does to the encoder when it ends in `t`: nothing presented and nothing shown, or the presented command's
record shown and its registers written if it fired. With `rst = 1` nothing is presented and the registers are reset. -/
def EncCycle (c : Cycle) (s t : State) : Prop :=
  t.pins.encCmdReady = (c.encRspReady && !c.rst) ∧
  match c.encPresented with
  | none => t.enc = (s.resetEdge c.rst).enc ∧ t.pins.encRspValid = false ∧ t.pins.encRsp = 0
  | some i => ∃ e r, r.wellFormed = true ∧ (∀ u : State, u.enc = s.enc → exec i u = .next ((u.setEnc e).respondEnc r)) ∧
      t.enc = (if c.encRspReady then e else s.enc) ∧ t.pins.showsEnc r

/-- What a cycle does to the decoder when it ends in `t`. -/
def DecCycle (c : Cycle) (s t : State) : Prop :=
  t.pins.decCmdReady = (c.decRspReady && !c.rst) ∧
  match c.decPresented with
  | none => t.dec = (s.resetEdge c.rst).dec ∧ t.pins.decRspValid = false ∧ t.pins.decRsp = 0
  | some i => ∃ d q, q.wellFormed = true ∧ (∀ u : State, u.dec = s.dec → exec i u = .next ((u.setDec d).respondDec q)) ∧
      t.dec = (if c.decRspReady then d else s.dec) ∧ t.pins.showsDec q

/-- A command is presented only in a cycle without reset. -/
theorem encPresented_rst {c : Cycle} {i : Instr} (h : c.encPresented = some i) : c.rst = false := by
  unfold Cycle.encPresented at h
  cases hr : c.rst <;> simp [hr] at h ⊢

/-- A command is presented only in a cycle without reset. -/
theorem decPresented_rst {c : Cycle} {i : Instr} (h : c.decPresented = some i) : c.rst = false := by
  unfold Cycle.decPresented at h
  cases hr : c.rst <;> simp [hr] at h ⊢

/-- The state a presented encoder command leads to, by its registers and record. -/
theorem present_enc_of {i : Instr} {s : State} {e : EncRegs} {r : EncRecord} (ready : Bool)
    (h : exec i s = .next ((s.setEnc e).respondEnc r)) :
    present (some i) ready s = .next ((s.setEnc (if ready then e else s.enc)).respondEnc r) := by
  cases ready
  · rw [present_stalled, h]; rfl
  · rw [present_ready, h]; rfl

/-- The state a presented decoder command leads to, by its registers and record. -/
theorem present_dec_of {i : Instr} {s : State} {d : DecRegs} {q : DecRecord} (ready : Bool)
    (h : exec i s = .next ((s.setDec d).respondDec q)) :
    present (some i) ready s = .next ((s.setDec (if ready then d else s.dec)).respondDec q) := by
  cases ready
  · rw [present_stalled, h]; rfl
  · rw [present_ready, h]; rfl

/-- A command refused is refused as presented, ready or not. -/
theorem present_refused {i : Instr} {s : State} {f : Refusal} (ready : Bool) (h : exec i s = .refused f) :
    present (some i) ready s = .refused f := by
  simp only [present, h]; rfl

/-- A clock cycle either is refused, which takes `enc.cnt = 3`, or ends in a state that each unit's part describes. -/
theorem clock_cases (c : Cycle) (s : State) :
    (s.enc.cnt = 3 ∧ clock c s = .refused .encCountUnreachable) ∨
    ∃ t, clock c s = .next t ∧ t.pending = s.pending ∧ EncCycle c s t ∧ DecCycle c s t := by
  unfold clock
  simp only [clock_tail]
  cases he : c.encPresented with
  | none =>
    right
    cases hd : c.decPresented with
    | none => exact ⟨_, rfl, by simp, by simp [EncCycle, he]; cases c.rst <;> simp, by simp [DecCycle, hd]; cases c.rst <;> simp⟩
    | some j =>
      obtain ⟨d, q, hq, hj⟩ := exec_decCmd j (decPresented_port hd) s.dec
      simp only [present_none, andThen_next, present_dec_of c.decRspReady (hj (s.beginCycle c) rfl)]
      refine ⟨_, rfl, by simp, ?_, ?_⟩
      · simp [EncCycle, he]; cases c.rst <;> simp
      · simp only [DecCycle, hd]
        refine ⟨by simp, d, q, hq, hj, ?_⟩
        simp [decPresented_rst hd, Pins.showsDec]
  | some i =>
    rcases exec_encCmd i (encPresented_port he) s.enc with ⟨h3, hi⟩ | ⟨e, r, hr, hi⟩
    · exact .inl ⟨h3, by rw [present_refused _ (hi (s.beginCycle c) rfl)]; rfl⟩
    · right
      rw [present_enc_of c.encRspReady (hi (s.beginCycle c) rfl)]
      cases hd : c.decPresented with
      | none =>
        refine ⟨_, rfl, by simp, ?_, ?_⟩
        · simp only [EncCycle, he]
          refine ⟨by simp, e, r, hr, hi, ?_⟩
          simp [encPresented_rst he, Pins.showsEnc]
        · simp [DecCycle, hd]; cases c.rst <;> simp
      | some j =>
        obtain ⟨d, q, hq, hj⟩ := exec_decCmd j (decPresented_port hd) s.dec
        simp only [andThen_next]
        rw [present_dec_of c.decRspReady (hj _ (by simp))]
        refine ⟨_, rfl, by simp, ?_, ?_⟩
        · simp only [EncCycle, he]
          refine ⟨by simp, e, r, hr, hi, ?_⟩
          simp [encPresented_rst he, Pins.showsEnc]
        · simp only [DecCycle, hd]
          refine ⟨by simp, d, q, hq, hj, ?_⟩
          simp [decPresented_rst hd, Pins.showsDec]

/-- Everything a clock cycle can do, where it answers a next state. -/
theorem clock_next {c : Cycle} {s t : State} (h : clock c s = .next t) :
    t.pending = s.pending ∧ EncCycle c s t ∧ DecCycle c s t := by
  rcases clock_cases c s with ⟨-, hr⟩ | ⟨t', ht, hs⟩
  · rw [hr] at h; exact absurd h (by simp)
  · rw [ht] at h; injection h with h; exact h ▸ hs

/-- A clock cycle answers a next state from every legal encoder count. -/
theorem clock_total (c : Cycle) (s : State) (h : s.enc.cnt ≠ 3) : ∃ t, clock c s = .next t := by
  rcases clock_cases c s with ⟨h3, -⟩ | ⟨t, ht, -⟩
  · exact absurd h3 h
  · exact ⟨t, ht⟩

end Sys2Proof.Machine
end

