-- ==== Sys2Proof/Laws/PerInstr.lean ====
section
/-! SUPPORT. One lemma per instruction: it is well formed, and its word is a word of its own port. -/

namespace Sys2Proof.Laws

/-- The instruction's operands lie in their fields, and `encode` gives a word that fits the instruction's port
(30_encoding.md R70, R73). -/
def EncodeFits.Statement (i : Instr) : Prop :=
  i.wellFormed = true ∧ (encode i).port = i.port ∧ (encode i).wellFormed = true

/-- A 10-bit word fits both command ports. -/
theorem EncodeFits.cmd (w : CmdWord) :
    (PortWord.mk .encCmd w.toNat).wellFormed = true ∧ (PortWord.mk .decCmd w.toNat).wellFormed = true :=
  ⟨decide_eq_true w.isLt, decide_eq_true w.isLt⟩

theorem EncodeFits.encNop : EncodeFits.Statement .encNop := ⟨rfl, rfl, (EncodeFits.cmd _).1⟩

theorem EncodeFits.encPush (b : Byte) : EncodeFits.Statement (.encPush b) :=
  ⟨decide_eq_true b.isLt, rfl, (EncodeFits.cmd _).1⟩

theorem EncodeFits.encFlush : EncodeFits.Statement .encFlush := ⟨rfl, rfl, (EncodeFits.cmd _).1⟩

theorem EncodeFits.encPushl (b : Byte) : EncodeFits.Statement (.encPushl b) :=
  ⟨decide_eq_true b.isLt, rfl, (EncodeFits.cmd _).1⟩

theorem EncodeFits.decNop : EncodeFits.Statement .decNop := ⟨rfl, rfl, (EncodeFits.cmd _).2⟩

theorem EncodeFits.decPush (c : Byte) : EncodeFits.Statement (.decPush c) :=
  ⟨decide_eq_true c.isLt, rfl, (EncodeFits.cmd _).2⟩

theorem EncodeFits.decEnd : EncodeFits.Statement .decEnd := ⟨rfl, rfl, (EncodeFits.cmd _).2⟩

theorem EncodeFits.decPushl (c : Byte) : EncodeFits.Statement (.decPushl c) :=
  ⟨decide_eq_true c.isLt, rfl, (EncodeFits.cmd _).2⟩

theorem EncodeFits.lutS2c (v : Sym) : EncodeFits.Statement (.lutS2c v) :=
  ⟨decide_eq_true v.isLt, rfl, decide_eq_true v.isLt⟩

theorem EncodeFits.lutC2s (c : Byte) : EncodeFits.Statement (.lutC2s c) :=
  ⟨decide_eq_true c.isLt, rfl, decide_eq_true c.isLt⟩

end Sys2Proof.Laws
end

