-- ==== Sys2Proof/Tests/Slice0.lean ====
section
/-! SUPPORT. The model's own tests: ill-formed terms refused, words of the spec decoded, the spec's single-command rows
(95_test_vectors.md part 4), and for each statement with hypotheses a witness that meets them. Expected values are the
spec's. -/

namespace Sys2Proof.Tests

open Sys2Proof Sys2Proof.Machine

/-! Well-formedness: one ill-formed term for each check -/

theorem test_wellFormed_encCmd_eleven_bits : (PortWord.mk .encCmd 0x400).wellFormed = false := by decide
theorem test_wellFormed_decCmd_eleven_bits : (PortWord.mk .decCmd 0x400).wellFormed = false := by decide
theorem test_wellFormed_romSym_seven_bits : (PortWord.mk .romSym 64).wellFormed = false := by decide
theorem test_wellFormed_romChr_nine_bits : (PortWord.mk .romChr 256).wellFormed = false := by decide
theorem test_wellFormed_widest_words :
    (PortWord.mk .encCmd 0x3FF).wellFormed = true ∧ (PortWord.mk .decCmd 0x3FF).wellFormed = true ∧
    (PortWord.mk .romSym 63).wellFormed = true ∧ (PortWord.mk .romChr 255).wellFormed = true := by decide
theorem test_decode_refuses_wide_word : decodeWord ⟨.encCmd, 0x400⟩ = .error (.tooWide .encCmd) := by decide
theorem test_wellFormed_two_characters : (EncRecord.mk [0x41, 0x42] false).wellFormed = false := by decide
theorem test_wellFormed_four_bytes : (DecRecord.mk [1, 2, 3, 4] false .ok).wellFormed = false := by decide
theorem test_wellFormed_status_without_last : (DecRecord.mk [] false .invalidSymbol).wellFormed = false := by decide
theorem test_wellFormed_status_with_byte : (DecRecord.mk [1] true .malformedPadding).wellFormed = false := by decide

/-- Response words the hardware never produces are refused (30_encoding.md R80). -/
theorem test_unpack_refuses :
    unpackErsp 0x200000041#34 = none ∧ unpackDrsp 0x01004141#29 = none ∧ unpackDrsp 0x08000000#29 = none ∧
    unpackDrsp 0x0D000041#29 = none := by decide

/-! Words written out bit by bit from 30_encoding.md R71, R72, R84: `last`, `has_data`, `data` -/

theorem test_decode_encNop : decodeWord ⟨.encCmd, 0b00_1111_1111⟩ = .ok .encNop := by decide
theorem test_decode_encPush : decodeWord ⟨.encCmd, 0b01_1010_0011⟩ = .ok (.encPush 0xA3) := by decide
theorem test_decode_encFlush : decodeWord ⟨.encCmd, 0b10_1010_1011⟩ = .ok .encFlush := by decide
theorem test_decode_encPushl : decodeWord ⟨.encCmd, 0b11_0000_1111⟩ = .ok (.encPushl 0x0F) := by decide
theorem test_decode_decNop : decodeWord ⟨.decCmd, 0b00_0000_0000⟩ = .ok .decNop := by decide
theorem test_decode_decPush : decodeWord ⟨.decCmd, 0b01_0101_0100⟩ = .ok (.decPush 0x54) := by decide
theorem test_decode_decEnd : decodeWord ⟨.decCmd, 0b10_0000_0000⟩ = .ok .decEnd := by decide
theorem test_decode_decPushl : decodeWord ⟨.decCmd, 0b11_0011_1101⟩ = .ok (.decPushl 0x3D) := by decide
theorem test_decode_lutS2c : decodeWord ⟨.romSym, 0b10_1000⟩ = .ok (.lutS2c 40) := by decide
theorem test_decode_lutC2s : decodeWord ⟨.romChr, 0b0110_1111⟩ = .ok (.lutC2s 0x6F) := by decide

/-- The script words of 30_encoding.md R82. -/
theorem test_encode_script :
    encode (.encPush 0xA3) = ⟨.encCmd, 0x1A3⟩ ∧ encode .encFlush = ⟨.encCmd, 0x200⟩ ∧
    encode (.decPushl 0x3D) = ⟨.decCmd, 0x33D⟩ := by decide

/-- Table words on the port the model takes (notes/assumptions/12.md). -/
theorem test_decodeTableWord :
    decodeTableWord 16 0x1A3 = some (.encPush 0xA3) ∧ decodeTableWord 8 0x28 = some (.lutS2c 0x28) ∧
    decodeTableWord 8 0x6F = some (.lutC2s 0x6F) ∧ decodeTableWord 16 0x400 = none := by decide

/-! Single commands -/

/-- A state with given encoder registers, all else as after reset. -/
def withEnc (cnt : BitVec 2) (b0 b1 : Byte) : State := { State.reset with enc := ⟨cnt, b0, b1⟩ }

/-- A state with given decoder registers, all else as after reset. -/
def withDec (pos : BitVec 2) (s0 s1 s2 : Sym) (pad2 closed : Bool) (err : Code) : State :=
  { State.reset with dec := ⟨pos, s0, s1, s2, pad2, closed, err⟩ }

/-- The encoder's registers, `enc_rsp_valid` and `enc_rsp` after a command word. -/
def encRow (w : CmdWord) (s : State) : Option (EncRegs × Bool × ErspWord) :=
  (nextState? (exec (decodeEnc w) s)).map fun t => (t.enc, t.pins.encRspValid, t.pins.encRsp)

/-- The decoder's registers, `dec_rsp_valid` and `dec_rsp` after a command word. -/
def decRow (w : CmdWord) (s : State) : Option (DecRegs × Bool × DrspWord) :=
  (nextState? (exec (decodeDec w) s)).map fun t => (t.dec, t.pins.decRspValid, t.pins.decRsp)

theorem test_encNop_keeps_leftover : encRow 0x0FF (withEnc 2 0x4D 0x61) = some (⟨2, 0x4D, 0x61⟩, false, 0) := by decide
theorem test_encPush_second_byte : encRow 0x161 (withEnc 1 0x4D 0) = some (⟨2, 0x4D, 0x61⟩, false, 0) := by decide
theorem test_encPush_third_byte : encRow 0x16E (withEnc 2 0x4D 0x61) = some (⟨0, 0, 0⟩, true, 0x175465754#34) := by decide
theorem test_encFlush_one_leftover : encRow 0x2AB (withEnc 1 0x4D 0) = some (⟨0, 0, 0⟩, true, 0x33D3D5154#34) := by decide
theorem test_encFlush_two_leftover : encRow 0x200 (withEnc 2 0xFF 0xFF) = some (⟨0, 0, 0⟩, true, 0x33D382F2F#34) := by decide
theorem test_encPushl_first_byte : encRow 0x3FF (withEnc 0 0 0) = some (⟨0, 0, 0⟩, true, 0x33D3D772F#34) := by decide
theorem test_encPushl_second_byte : encRow 0x361 (withEnc 1 0x4D 0) = some (⟨0, 0, 0⟩, true, 0x33D455754#34) := by decide

theorem test_decNop_keeps_error :
    decRow 0x000 (withDec 3 0 1 0 false false .invalidSymbol) =
      some (⟨3, 0, 1, 0, false, false, .invalidSymbol⟩, false, 0) := by decide
theorem test_decPush_full_group :
    decRow 0x175 (withDec 3 19 22 5 false false .ok) = some (⟨0, 0, 0, 0, false, false, .ok⟩, true, 0x036E614D#29) := by decide
theorem test_decPush_symbol_after_padding :
    decRow 0x141 (withDec 3 19 16 0 true false .ok) =
      some (⟨0, 19, 16, 0, true, false, .malformedPadding⟩, false, 0) := by decide
theorem test_decEnd_length_before_error :
    decRow 0x200 (withDec 3 0 1 0 false false .invalidSymbol) =
      some (⟨0, 0, 0, 0, false, false, .ok⟩, true, 0x14000000#29) := by decide
theorem test_decEnd_latched_padding :
    decRow 0x200 (withDec 0 0 0 0 true false .malformedPadding) =
      some (⟨0, 0, 0, 0, false, false, .ok⟩, true, 0x1C000000#29) := by decide
theorem test_decPushl_two_bytes :
    decRow 0x33D (withDec 3 19 22 5 false false .ok) = some (⟨0, 0, 0, 0, false, false, .ok⟩, true, 0x0600614D#29) := by decide
theorem test_decPushl_length_wins :
    decRow 0x341 (withDec 0 0 0 0 false true .ok) = some (⟨0, 0, 0, 0, false, false, .ok⟩, true, 0x14000000#29) := by decide

/-- `S2C(40) = 'o'` (40_alphabet_lut.md R103). -/
theorem test_lutS2c : (nextState? (exec (.lutS2c 40) State.reset)).map (·.pins.symData) = some (some 0x6F) := by decide
/-- `C2S('=') = (PAD, 0)` (40_alphabet_lut.md R105). -/
theorem test_lutC2s : (nextState? (exec (.lutC2s 0x3D) State.reset)).map (·.pins.chrData) = some (some 0x80) := by decide

/-! One clock cycle -/

/-- The next step after reset runs the placed word: `ENC.PUSH 0x4D`. -/
theorem test_step_placed_word :
    (nextState? (step (State.reset.withFetchWord 16 0x14D))).map (·.enc) = some ⟨1, 0x4D, 0⟩ := by decide
/-- With the response side not ready no command is accepted and the registers hold (30_encoding.md R75). -/
theorem test_step_stalled :
    (nextState? (step { withEnc 1 0x4D 0 with pending := [{ Cycle.idle with encCmdValid := true, encCmd := 0x200 }] })).map
      (fun t => (t.enc, t.pins.encCmdReady)) = some (⟨1, 0x4D, 0⟩, false) := by decide

/-! Witnesses: for each statement with hypotheses, concrete values that meet them together, clause by clause at the ends of
its ranges -/

theorem witness_DecodeOfEncodeIsIdentity :
    (Instr.encPush 0xFF).wellFormed = true ∧ (Instr.decEnd).wellFormed = true ∧ (Instr.lutS2c 63).wellFormed = true := by
  decide

theorem witness_SelectionByMaskAndMatch :
    (0x0FF : CmdWord) &&& 0x300 = 0x000 ∧ (0x1A3 : CmdWord) &&& 0x300 = 0x100 ∧ (0x2AB : CmdWord) &&& 0x300 = 0x200 ∧
    (0x3FF : CmdWord) &&& 0x300 = 0x300 := by decide

theorem witness_GroupBytes : syms3 0x4D 0x61 0x6E = (19, 22, 5, 46) := by decide

theorem witness_ForwardRomClosedForm :
    (25 : Sym).toNat ≤ 25 ∧ (26 ≤ (26 : Sym).toNat ∧ (26 : Sym).toNat ≤ 51) ∧
    (52 ≤ (61 : Sym).toNat ∧ (61 : Sym).toNat ≤ 61) ∧ (62 : Sym).toNat = 62 ∧ (63 : Sym).toNat = 63 ∧
    S2C 0 = S2C 0 := by decide

theorem witness_AlphabetLaws : (C2S 0x2F).1 = .sym ∧ S2C 63 = S2C 63 ∧ (C2S 0x3D).1 = .pad := by decide

theorem witness_InverseRomEntries :
    (memReadChr 0x3D).extractLsb' 6 2 ≠ 1 ∧ (memReadChr 0x23).extractLsb' 6 2 ≠ 1 := by decide

/-- The hypotheses of `EncPushResult`, `EncFlushResult`, `EncPushlResult` and `EncPushlMergesPushAndFlush`. -/
theorem witness_encoder_results :
    ((withEnc 0 0 0).enc.cnt ≠ 3 ∧ (withEnc 0 0 0).enc.cnt = 0) ∧
    ((withEnc 1 0xFF 0).enc.cnt ≠ 3 ∧ (withEnc 1 0xFF 0).enc.cnt = 1) ∧
    ((withEnc 2 0xFF 0xFF).enc.cnt ≠ 3 ∧ (withEnc 2 0xFF 0xFF).enc.cnt = 2) := by decide

theorem witness_EveryInstructionCompletes :
    (Instr.encPush 0).port = .encCmd ∧ (withEnc 2 0 0).enc.cnt ≠ 3 ∧ (Instr.decPush 0).port = .decCmd ∧
    (Instr.lutS2c 0).port = .romSym ∧ (Instr.lutC2s 0).port = .romChr := by decide

theorem witness_UnreachableCountIsRefused :
    (withEnc 3 0 0).enc.cnt = 3 ∧ Instr.encFlush.port = .encCmd ∧ Instr.encFlush ≠ .encNop ∧
    exec .encFlush (withEnc 3 0 0) = .refused .encCountUnreachable := ⟨rfl, rfl, by decide, rfl⟩

theorem witness_EncoderResponseWords :
    (∃ t, exec (.encPush 0xFF) (withEnc 2 0xFF 0xFF) = .next t ∧ t.pins.encRspValid = true) ∧
    (∃ t, exec (.encPushl 0xFF) (withEnc 0 0 0) = .next t ∧ t.pins.encRspValid = true) ∧
    (∃ t, exec .encFlush (withEnc 0 0 0) = .next t ∧ t.pins.encRspValid = true) ∧
    (∃ t, exec .encNop (withEnc 0 0 0) = .next t ∧ t.pins.encRspValid = false) :=
  ⟨⟨_, rfl, rfl⟩, ⟨_, rfl, rfl⟩, ⟨_, rfl, rfl⟩, ⟨_, rfl, rfl⟩⟩

/-- Also the hypothesis of `EncoderStreamGivesEncode` on the state, and a last state of the run. -/
theorem witness_CountIsPushesModuloThree :
    State.reset.enc = ⟨0, 0, 0⟩ ∧ ∃ t, runCommands ([0x4D].map Instr.encPush) State.reset = some [t] ∧ t.enc.cnt = 1 :=
  ⟨rfl, _, rfl, rfl⟩

/-- A state and a character for every arm of the character step, (a) to (h) and the three stores, for `DecPushResult` and
`DecPushlResult`. -/
theorem witness_CharStep_arms :
    ((withDec 3 0 1 0 false false .invalidSymbol).dec.err ≠ .ok) ∧
    ((withDec 0 0 0 0 false false .ok).dec.err = .ok ∧ (C2S 0x23).1 = .inv) ∧
    ((C2S 0x41).1 = .sym ∧ ((withDec 0 0 0 0 false true .ok).dec.closed = true ∨
      (withDec 0 0 0 0 false true .ok).dec.pad2 = true)) ∧
    ((C2S 0x2F).1 = .sym ∧ (withDec 0 0 0 0 false false .ok).dec.pos = 0 ∧ (withDec 1 9 0 0 false false .ok).dec.pos = 1 ∧
      (withDec 2 9 9 0 false false .ok).dec.pos = 2 ∧ (withDec 3 9 9 9 false false .ok).dec.pos = 3 ∧
      (withDec 3 9 9 9 false false .ok).dec.closed = false ∧ (withDec 3 9 9 9 false false .ok).dec.pad2 = false) ∧
    ((C2S 0x3D).1 = .pad ∧ (withDec 1 9 0 0 false false .ok).dec.pos = 1 ∧ (withDec 2 9 9 0 false false .ok).dec.pos = 2 ∧
      (withDec 3 9 9 0 true false .ok).dec.pad2 = true ∧ (withDec 3 9 9 9 false false .ok).dec.pad2 = false) := by
  decide

theorem witness_DecPushResult_bytes :
    (∃ t, exec (.decPush 0x3D) (withDec 3 19 16 0 true false .ok) = .next t ∧ (shownDec t).bytes = [0x4D]) ∧
    (∃ t, exec (.decPush 0x41) (withDec 0 0 0 0 false false .ok) = .next t ∧ (shownDec t).bytes = []) :=
  ⟨⟨_, rfl, by decide⟩, ⟨_, rfl, by decide⟩⟩

theorem witness_DecPushlResult_bytes :
    ∃ t, exec (.decPushl 0x75) (withDec 3 19 22 5 false false .ok) = .next t ∧ (shownDec t).bytes ≠ [] :=
  ⟨_, rfl, by decide⟩

theorem witness_DecEndResult :
    (withDec 3 0 0 0 false false .ok).dec.pos ≠ 0 ∧
    ((withDec 0 0 0 0 false false .invalidSymbol).dec.pos = 0 ∧
      (withDec 0 0 0 0 false false .invalidSymbol).dec.err = .invalidSymbol) ∧
    ((withDec 0 0 0 0 true false .malformedPadding).dec.pos = 0 ∧
      (withDec 0 0 0 0 true false .malformedPadding).dec.err = .malformedPadding) ∧
    ((withDec 0 0 0 0 false true .ok).dec.pos = 0 ∧ (withDec 0 0 0 0 false true .ok).dec.err = .ok) := by decide

theorem witness_DecoderResponseWords :
    (∃ t, exec .decEnd (withDec 1 0 0 0 false false .ok) = .next t ∧ t.pins.decRspValid = true) ∧
    (∃ t, exec (.decPush 0x41) (withDec 1 0 0 0 false false .ok) = .next t ∧ t.pins.decRspValid = false) :=
  ⟨⟨_, rfl, rfl⟩, ⟨_, rfl, rfl⟩⟩

/-- The hypotheses of `InvalidSymbolCause` and `MalformedPaddingCauses`: no error, position 3, and both commands run. -/
theorem witness_error_causes :
    (withDec 3 19 16 0 true false .ok).dec.err = .ok ∧ (withDec 3 19 16 0 true false .ok).dec.pos = 3 ∧
    (∃ t, exec (.decPush 0x23) (withDec 3 19 16 0 true false .ok) = .next t ∧ t.dec.err = .invalidSymbol) ∧
    (∃ t, exec (.decPush 0x41) (withDec 3 19 16 0 true false .ok) = .next t ∧ t.dec.err = .malformedPadding) ∧
    (∃ t, exec (.decPushl 0x23) (withDec 3 19 16 0 true false .ok) = .next t ∧ (shownDec t).status = .invalidSymbol) ∧
    (∃ t, exec (.decPushl 0x41) (withDec 3 19 16 0 true false .ok) = .next t ∧ (shownDec t).status = .malformedPadding) :=
  ⟨rfl, rfl, ⟨_, rfl, rfl⟩, ⟨_, rfl, rfl⟩, ⟨_, rfl, by decide⟩, ⟨_, rfl, by decide⟩⟩

/-- The four events of 60_exceptions.md R223. -/
theorem witness_PaddingFault_events :
    PaddingFault (withDec 1 9 0 0 false false .ok).dec .pad ∧ PaddingFault (withDec 0 0 0 0 false true .ok).dec .pad ∧
    PaddingFault (withDec 3 9 9 0 true false .ok).dec .sym ∧ PaddingFault (withDec 0 0 0 0 false true .ok).dec .sym := by
  decide

theorem witness_MalformedLengthCause :
    (withDec 1 9 0 0 false false .ok).dec.err ≠ .malformedLength ∧
    (∃ t, exec .decEnd (withDec 1 9 0 0 false false .ok) = .next t ∧ (shownDec t).status = .malformedLength) ∧
    (∃ t, exec (.decPushl 0x41) (withDec 0 0 0 0 false false .ok) = .next t ∧ (shownDec t).status = .malformedLength) ∧
    (∃ t, exec (.decPush 0x41) (withDec 1 9 0 0 false false .ok) = .next t ∧ t.dec.pos = 2) :=
  ⟨by decide, ⟨_, rfl, by decide⟩, ⟨_, rfl, by decide⟩, ⟨_, rfl, rfl⟩⟩

theorem witness_LatchIsPreciseAndFirstErrorWins :
    (∃ t, exec (.decPush 0x3D) (withDec 1 9 0 0 false false .ok) = .next t ∧ t.dec.err ≠ .ok) ∧
    (withDec 3 0 1 0 false false .invalidSymbol).dec.err ≠ .ok ∧
    (∃ t, exec (.decPush 0x3D) (withDec 3 0 1 0 false false .invalidSymbol) = .next t ∧ t.dec.err = .invalidSymbol) ∧
    (∃ t, exec (.decPushl 0x44) (withDec 3 0 1 0 false false .invalidSymbol) = .next t ∧ (shownDec t).status ≠ .ok) ∧
    (∃ t, exec .decNop (withDec 3 0 1 0 false false .invalidSymbol) = .next t ∧ t.dec.err = .invalidSymbol) :=
  ⟨⟨_, rfl, by decide⟩, by decide, ⟨_, rfl, rfl⟩, ⟨_, rfl, by decide⟩, ⟨_, rfl, rfl⟩⟩

theorem witness_PositionCountsEveryCharacter :
    ∃ t, runCommands ([0x23].map Instr.decPush) (withDec 3 0 1 0 false false .invalidSymbol) = some [t] ∧ t.dec.pos = 0 :=
  ⟨_, rfl, rfl⟩

/-- A state that meets the invariant for each abstract state of the padding structure. -/
theorem witness_PaddingTransitionTable :
    ((withDec 0 0 0 0 false false .ok).dec.Inv ∧ (withDec 0 0 0 0 false false .ok).dec.phase = .G0) ∧
    ((withDec 1 9 0 0 false false .ok).dec.Inv ∧ (withDec 1 9 0 0 false false .ok).dec.phase = .G1) ∧
    ((withDec 2 9 9 0 false false .ok).dec.Inv ∧ (withDec 2 9 9 0 false false .ok).dec.phase = .G2) ∧
    ((withDec 3 9 9 9 false false .ok).dec.Inv ∧ (withDec 3 9 9 9 false false .ok).dec.phase = .G3) ∧
    ((withDec 3 9 9 0 true false .ok).dec.Inv ∧ (withDec 3 9 9 0 true false .ok).dec.phase = .P3) ∧
    ((withDec 0 0 0 0 false true .ok).dec.Inv ∧ (withDec 0 0 0 0 false true .ok).dec.phase = .C0) ∧
    ((withDec 2 9 9 9 true true .malformedPadding).dec.Inv ∧
      (withDec 2 9 9 9 true true .malformedPadding).dec.phase = .E) :=
  ⟨⟨by decide, rfl⟩, ⟨by decide, rfl⟩, ⟨by decide, rfl⟩, ⟨by decide, rfl⟩, ⟨by decide, rfl⟩, ⟨by decide, rfl⟩,
    ⟨by decide, rfl⟩⟩


theorem witness_UnusedTailBitsAreIgnored :
    (31 : Sym).extractLsb' 4 2 = 1 ∧
    ((withDec 3 19 22 0 false false .ok).dec.err = .ok ∧ (withDec 3 19 22 0 false false .ok).dec.closed = false ∧
      (withDec 3 19 22 0 false false .ok).dec.pos = 3 ∧ (withDec 3 19 22 0 false false .ok).dec.pad2 = false ∧
      (4 : Sym).extractLsb' 2 4 = (7 : Sym).extractLsb' 2 4) ∧
    ((withDec 3 19 16 0 true false .ok).dec.closed = false ∧ (withDec 3 19 16 0 true false .ok).dec.pad2 = true ∧
      (16 : Sym).extractLsb' 4 2 = (31 : Sym).extractLsb' 4 2) := by decide

/-- A cycle that presents a command word to the encoder, the response side ready. -/
def encCycle (w : CmdWord) : Cycle := { Cycle.ready with encCmdValid := true, encCmd := w }

/-- A cycle that presents a command word to the decoder, the response side ready. -/
def decCycle (w : CmdWord) : Cycle := { Cycle.ready with decCmdValid := true, decCmd := w }

/-- The hypotheses of `StepKeepsTheInvariant`, `StepNeverStopsUnderTheInvariant` and `StepShowsOnlyPossibleWords`. -/
theorem witness_step_invariant :
    ({ withEnc 2 0x4D 0x61 with pending := [encCycle 0x16E] } : State).Inv ∧
    ∃ t, step { withEnc 2 0x4D 0x61 with pending := [encCycle 0x16E] } = .next t ∧ t.pins.encRspValid = true :=
  ⟨⟨by decide, by decide⟩, _, rfl, rfl⟩

theorem witness_EndOfMessageLeavesTheResetState :
    (∃ t, exec .encFlush (withEnc 2 1 2) = .next t ∧ t.enc = State.reset.enc) ∧
    (∃ t, exec (.decPushl 0x41) (withDec 1 9 0 0 false false .ok) = .next t ∧ t.dec = State.reset.dec) ∧
    (Instr.lutS2c 0).port ≠ .encCmd ∧ (Instr.lutS2c 0).port ≠ .decCmd ∧
    (∃ t, exec (.lutS2c 0) (withEnc 2 1 2) = .next t ∧ t.enc = ⟨2, 1, 2⟩) :=
  ⟨⟨_, rfl, rfl⟩, ⟨_, rfl, rfl⟩, by decide, by decide, ⟨_, rfl, rfl⟩⟩

theorem witness_ResponseDependsOnRegistersAndCommandOnly :
    (withEnc 1 0x4D 0).enc = ((withEnc 1 0x4D 0).withFetchWord 16 0).enc ∧
    (withEnc 1 0x4D 0).dec = ((withEnc 1 0x4D 0).withFetchWord 16 0).dec ∧
    withEnc 1 0x4D 0 ≠ (withEnc 1 0x4D 0).withFetchWord 16 0 ∧
    (∃ t, exec .encFlush (withEnc 1 0x4D 0) = .next t ∧ t.pins.encRspValid = true) ∧
    (∃ t, exec .decEnd (withEnc 1 0x4D 0) = .next t ∧ t.pins.decRspValid = true) :=
  ⟨rfl, rfl, by decide, ⟨_, rfl, rfl⟩, ⟨_, rfl, rfl⟩⟩

theorem witness_StepRunsTheDecodedInstruction :
    decodeWord ⟨.decCmd, 0x33D⟩ = .ok (.decPushl 0x3D) ∧ (Instr.decPushl 0x3D).wellFormed = true ∧
    decodeTableWord 16 0x34D = some (.encPushl 0x4D) := by decide

theorem witness_HandshakeGovernsEachUnit :
    (∃ t, clock { encCycle 0x14D with decCmdValid := true, decCmd := 0x200 } State.reset = .next t ∧ t.enc.cnt = 1) ∧
    (∃ t, clock Cycle.ready State.reset = .next t ∧ t.pins.encCmdReady = true) ∧
    (∃ t, clock { encCycle 0x14D with rst := true } (withEnc 1 1 0) = .next t ∧ t.enc.cnt = 0) :=
  ⟨⟨_, rfl, rfl⟩, ⟨_, rfl, rfl⟩, ⟨_, rfl, rfl⟩⟩

theorem witness_ResetEdgeClearsBothUnits : ({ encCycle 0x34D with rst := true } : Cycle).rst = true := rfl

theorem witness_UnitsHoldWhileNothingFires :
    (∃ ts, runCycles 2 { withEnc 1 0x4D 0 with pending := [Cycle.ready, { encCycle 0x200 with encRspReady := false }] } =
      some ts ∧ ts.length = 2) ∧
    (∀ c ∈ [Cycle.ready, { encCycle 0x200 with encRspReady := false }], c.rst = false) ∧
    (∀ c ∈ [Cycle.ready, { encCycle 0x200 with encRspReady := false }], c.encCmdValid = false ∨ c.encRspReady = false) ∧
    (∀ c ∈ [Cycle.ready, { decCycle 0x200 with decRspReady := false }], c.decCmdValid = false ∨ c.decRspReady = false) :=
  ⟨⟨_, rfl, rfl⟩, by decide, by decide, by decide⟩

theorem witness_UnitsCommute : (Instr.encPush 1).port = .encCmd ∧ (Instr.decPush 0x41).port = .decCmd := by decide

/-- Two runs that differ at the decoder, and two that differ at the encoder. -/
theorem witness_UnitsDoNotInterfere :
    (∃ ts ts', runCycles 1 { State.reset with pending := [encCycle 0x14D] } = some ts ∧
      runCycles 1 { withDec 1 9 0 0 false false .ok with pending := [{ encCycle 0x14D with decCmdValid := true, decCmd := 0x200 }] } =
        some ts' ∧ ts ≠ ts') ∧
    State.reset.enc = (withDec 1 9 0 0 false false .ok).enc ∧
    [encCycle 0x14D].map Cycle.encInputs =
      [{ encCycle 0x14D with decCmdValid := true, decCmd := 0x200 }].map Cycle.encInputs ∧
    State.reset.dec = (withEnc 1 9 0).dec ∧
    [decCycle 0x141].map Cycle.decInputs =
      [{ decCycle 0x141 with encCmdValid := true, encCmd := 0x200 }].map Cycle.decInputs :=
  ⟨⟨_, _, rfl, rfl, by decide⟩, by decide, by decide, by decide, by decide⟩

theorem witness_EncoderStreamGivesEncode :
    State.reset.enc = ⟨0, 0, 0⟩ ∧ [Instr.encPush 0x4D, .encNop, .decNop, .encFlush].filter notNop = encMsg [0x4D] ∧
    [Instr.encNop, .encPushl 0x4D].filter notNop = encMsgl [] 0x4D := by decide

theorem witness_DecoderStreamGivesDecode :
    State.reset.dec = ⟨0, 0, 0, 0, false, false, .ok⟩ ∧
    [Instr.decPush 0x41, .decNop, .encNop, .decEnd].filter notNop = decMsg [0x41] ∧
    [Instr.decPushl 0x41, .decNop].filter notNop = decMsgl [] 0x41 ∧
    decodeText [0x54, 0x51, 0x3D, 0x3D] = .ok [0x4D] := by decide

/-- A message stalled, with a `NOP` and commands for the other unit between its commands. -/
theorem witness_ClockedEncoderStream :
    State.reset.enc = ⟨0, 0, 0⟩ ∧
    (∀ c ∈ [decCycle 0x141, encCycle 0x14D, { encCycle 0x200 with encRspReady := false }, encCycle 0, encCycle 0x200],
      c.rst = false) ∧
    (encFired [decCycle 0x141, encCycle 0x14D, { encCycle 0x200 with encRspReady := false }, encCycle 0,
      encCycle 0x200]).filter notNop = encMsg [0x4D] ∧
    (encFired [encCycle 0x14D, encCycle 0x361]).filter notNop = encMsgl [0x4D] 0x61 := by decide

theorem witness_ClockedDecoderStream :
    State.reset.Inv ∧ State.reset.dec = ⟨0, 0, 0, 0, false, false, .ok⟩ ∧
    (∀ c ∈ [encCycle 0x14D, decCycle 0x141, { decCycle 0x200 with decRspReady := false }, decCycle 0, decCycle 0x200],
      c.rst = false) ∧
    (decFired [encCycle 0x14D, decCycle 0x141, { decCycle 0x200 with decRspReady := false }, decCycle 0,
      decCycle 0x200]).filter notNop = decMsg [0x41] ∧
    (decFired [decCycle 0x141, decCycle 0x342]).filter notNop = decMsgl [0x41] 0x42 :=
  ⟨⟨by decide, by decide⟩, rfl, by decide, by decide, by decide⟩

theorem witness_MalformedLengthExactly :
    ([0x41] : List Byte).length % 4 = 1 ∧ decodeText [0x41, 0x42, 0x43, 0x44, 0x45] = .error .malformedLength := by decide

theorem witness_AcceptedStrings :
    decodeText [] = .ok [] ∧ decodeText [0x51, 0x66, 0x3D, 0x3D] = .ok [0x41] ∧
    decodeText [0x2F, 0x77, 0x41, 0x3D] = .ok [0xFF, 0x00] := by decide

/-- "A=#A" is a padding fault, "AA=#" an invalid symbol, "AB#DE" a length fault and the empty string none
(60_exceptions.md R226). -/
theorem witness_FaultPriority :
    State.reset.dec = ⟨0, 0, 0, 0, false, false, .ok⟩ ∧
    ([0x41, 0x42, 0x23, 0x44, 0x45] : List Byte).length % 4 ≠ 0 ∧
    ((∀ j < 1, violationAt [0x41, 0x3D, 0x23, 0x41] j = none) ∧ (C2S 0x3D).1 ≠ .inv ∧
      violationAt [0x41, 0x3D, 0x23, 0x41] 1 ≠ none) ∧
    ((∀ j < 3, violationAt [0x41, 0x41, 0x3D, 0x23] j = none) ∧ (C2S 0x23).1 = .inv) ∧
    (∀ i < 4, violationAt [0x54, 0x51, 0x3D, 0x3D] i = none) := by decide

/-! Messages: where they are cut, and their verdict (70_reset_and_hazards.md R276) -/

/-- "ABCDE": the beat of a whole group belongs to the message that fails, and the next message starts clean
(95_test_vectors.md P5, P3). -/
theorem test_decMessages_verdicts :
    decMessages [.item ⟨[0x00, 0x10, 0x83], false, .ok⟩, .quiet, .item ⟨[], true, .malformedLength⟩,
        .item ⟨[0x4D], true, .ok⟩] =
      [⟨[0x00, 0x10, 0x83], .malformedLength⟩, ⟨[0x4D], .ok⟩] := by decide

/-- A reset abandons the message before it, and characters without an end mark are no output (95_test_vectors.md P10). -/
theorem test_encMessages_abandoned :
    encMessages [.item ⟨[0x54, 0x57, 0x46, 0x75], false⟩, .reset, .item ⟨[], true⟩,
        .item ⟨[0x54, 0x57, 0x46, 0x75], false⟩] = [[]] := by decide

/-- The commands of P10: the pushes before the reset belong to no message. -/
theorem test_sentMessages_abandoned :
    sentMessages ([encCycle 0x14D, { Cycle.ready with rst := true }, encCycle 0x200, encCycle 0x361].map encSent) =
      [[], [0x61]] := by decide

theorem witness_MessagesAreCutAtLastAndReset :
    (EncRecord.mk [] true).last = true ∧ (DecRecord.mk [] true .ok).last = true ∧
    (∀ e ∈ [Event.quiet, .item (EncRecord.mk [0x41, 0x41, 0x41, 0x41] false)],
      e = .quiet ∨ ∃ q, e = .item q ∧ q.last = false) ∧
    (∀ e ∈ [Event.quiet, .item (DecRecord.mk [0x41] false .ok)], e = .quiet ∨ ∃ q, e = .item q ∧ q.last = false) ∧
    [Event.item (EncRecord.mk [] true), .reset].getLast? = some .reset ∧
    (∃ q, [Event.reset, .item (EncRecord.mk [] true)].getLast? = some (.item q) ∧ q.last = true) ∧
    (∃ q, [Event.reset, .item (DecRecord.mk [] true .ok)].getLast? = some (.item q) ∧ q.last = true) :=
  ⟨rfl, rfl, by simp, by simp, rfl, ⟨_, rfl, rfl⟩, ⟨_, rfl, rfl⟩⟩

/-- A run with messages of both units that end: one encoder message, and one decoder message after an abandoned one. -/
theorem witness_EveryRunGivesItsMessages :
    State.reset.enc = ⟨0, 0, 0⟩ ∧ State.reset.dec = ⟨0, 0, 0, 0, false, false, .ok⟩ ∧
    sentMessages ([encCycle 0x34D, decCycle 0x141, { Cycle.ready with rst := true }, decCycle 0x341].map encSent) =
      [[0x4D]] ∧
    sentMessages ([encCycle 0x34D, decCycle 0x141, { Cycle.ready with rst := true }, decCycle 0x341].map decSent) =
      [[0x41]] := by decide

end Sys2Proof.Tests
end

section
/-! The statements of 10_state.md: the character count (R24), what a response depends on (R31) and the reset values (R33). -/

namespace Sys2Proof.Machine

/-! The character count -/

@[simp] theorem DecRegs.completeGroup_pos (d : DecRegs) (padded : Bool) : (d.completeGroup padded).pos = d.pos := by
  cases padded <;> rfl

theorem DecRegs.acceptSym_pos (d : DecRegs) (v : Sym) : (d.acceptSym v).1.pos = d.pos + 1 := by
  unfold DecRegs.acceptSym
  split_ifs <;> simp

theorem DecRegs.acceptPad_pos (d : DecRegs) : d.acceptPad.1.pos = d.pos + 1 := by
  unfold DecRegs.acceptPad
  split_ifs <;> simp

/-- Every way through the character step counts the character, the ways that latch or keep an error included
(10_state.md R24). -/
@[simp] theorem DecRegs.char_pos (d : DecRegs) (c : Byte) : (d.char c).1.pos = d.pos + 1 := by
  rcases d.char_cases c with ⟨-, h⟩ | ⟨-, -, h⟩ | ⟨-, -, -, h⟩ | ⟨-, -, -, h⟩ | ⟨-, -, -, h⟩ | ⟨-, -, -, h⟩ <;> rw [h]
  case inr.inr.inr.inl => exact d.acceptSym_pos _
  case inr.inr.inr.inr.inr => exact d.acceptPad_pos
  all_goals simp

/-- `DEC.PUSH` never stops: it writes the registers the character step leaves and responds with the bytes it emits
(42_decoder.md R155). -/
theorem exec_decPush (c : Byte) (s : State) :
    exec (.decPush c) s = .next ((s.setDec (s.dec.char c).1).respondDec ⟨(s.dec.char c).2, false, .ok⟩) := rfl

theorem runCommands_cons {i : Instr} {s t : State} (h : exec i (s.beginCycle Cycle.ready) = .next t) (is : List Instr) :
    runCommands (i :: is) s = (runCommands is t).map (t :: ·) := by
  simp only [runCommands, h]

/-- The count in the last state of a run of pushes. A run of no pushes ends where it began, which makes the claim provable by
induction on the characters. -/
theorem runCommands_decPush_pos (S : List Byte) (s : State) :
    ∃ ts, runCommands (S.map Instr.decPush) s = some ts ∧
      (ts.getLast?.getD s).dec.pos.toNat = (s.dec.pos.toNat + S.length) % 4 := by
  induction S generalizing s with
  | nil => exact ⟨[], rfl, (Nat.mod_eq_of_lt s.dec.pos.isLt).symm⟩
  | cons c S ih =>
    have hc := exec_decPush c (s.beginCycle Cycle.ready)
    obtain ⟨ts, hrun, hpos⟩ := ih _
    refine ⟨_, by rw [List.map_cons, runCommands_cons hc, hrun, Option.map_some], ?_⟩
    rw [List.getLast?_cons, Option.getD_some, hpos]
    simp [BitVec.toNat_add, Nat.add_assoc, Nat.add_comm 1]

/-- Settles O33, by induction on the characters: each push adds 1 (`DecRegs.char_pos`). -/
theorem positionCountsEveryCharacter : Obligations.PositionCountsEveryCharacter := by
  intro S s
  obtain ⟨ts, hrun, hpos⟩ := runCommands_decPush_pos S s
  refine ⟨ts, hrun, fun t ht => ?_⟩
  rwa [ht, Option.getD_some] at hpos

/-! What a response depends on -/

/-- Where an encoder instruction completes, it writes the same registers and responds with the same record in every state with
these encoder registers. -/
theorem exec_encCmd_congr {i : Instr} {s s' t : State} (hi : i.port = .encCmd) (he : s.enc = s'.enc)
    (h : exec i s = .next t) :
    ∃ e r, t = (s.setEnc e).respondEnc r ∧ exec i s' = .next ((s'.setEnc e).respondEnc r) := by
  rcases exec_encCmd i hi s.enc with ⟨-, hstop⟩ | ⟨e, r, -, hnext⟩
  · rw [hstop s rfl] at h
    cases h
  · rw [hnext s rfl] at h
    cases h
    exact ⟨e, r, rfl, hnext s' he.symm⟩

/-- A decoder instruction writes the same registers and responds with the same record in every state with these decoder
registers. -/
theorem exec_decCmd_congr {i : Instr} {s s' t : State} (hi : i.port = .decCmd) (hd : s.dec = s'.dec)
    (h : exec i s = .next t) :
    ∃ d r, t = (s.setDec d).respondDec r ∧ exec i s' = .next ((s'.setDec d).respondDec r) := by
  obtain ⟨d, r, -, hnext⟩ := exec_decCmd i hi s.dec
  rw [hnext s rfl] at h
  cases h
  exact ⟨d, r, rfl, hnext s' hd.symm⟩

/-- A bare ROM read completes and writes no register (40_alphabet_lut.md R103, R105). -/
theorem exec_romRead {i : Instr} (hi : i.port = .romSym ∨ i.port = .romChr) (s : State) :
    ∃ t, exec i s = .next t ∧ t.enc = s.enc ∧ t.dec = s.dec := by
  cases i with
  | lutS2c v => exact ⟨_, exec_lutS2c v s, rfl, rfl⟩
  | lutC2s c => exact ⟨_, exec_lutC2s c s, rfl, rfl⟩
  | _ => simp [Instr.port] at hi

/-- Settles O42, by the port of the instruction: a command's registers and record are fixed by its own unit's registers, and a
ROM read writes no register and gives no response. -/
theorem responseDependsOnRegistersAndCommandOnly : Obligations.ResponseDependsOnRegistersAndCommandOnly := by
  intro i s s' t he hd h
  cases hp : i.port with
  | encCmd =>
    obtain ⟨e, r, rfl, h'⟩ := exec_encCmd_congr hp he h
    exact ⟨_, h', by simp [hd]⟩
  | decCmd =>
    obtain ⟨d, r, rfl, h'⟩ := exec_decCmd_congr hp hd h
    exact ⟨_, h', by simp [he]⟩
  | romSym | romChr =>
    have hrom : i.port = .romSym ∨ i.port = .romChr := by simp [hp]
    obtain ⟨u, hu, hue, hud⟩ := exec_romRead hrom s
    obtain ⟨u', hu', hue', hud'⟩ := exec_romRead hrom s'
    obtain rfl : u = t := Host.Outcome.next.inj (hu.symm.trans h)
    exact ⟨u', hu', by rw [hue', hue, he], by rw [hud', hud, hd], nofun, nofun⟩

/-! Reset -/

@[simp] theorem State.reset_enc : State.reset.enc = EncRegs.reset := rfl
@[simp] theorem State.reset_dec : State.reset.dec = DecRegs.reset := rfl
@[simp] theorem State.reset_pins : State.reset.pins = Pins.idle := rfl

@[simp] theorem Pins.idle_encRspValid : Pins.idle.encRspValid = false := rfl
@[simp] theorem Pins.idle_decRspValid : Pins.idle.decRspValid = false := rfl

/-- Settles O36: the two units' reset values and the idle ports, field by field. -/
theorem resetValues : Obligations.ResetValues := by
  simp [Obligations.ResetValues, Code.bits]

end Sys2Proof.Machine
end

section
/-! The statements of 30_encoding.md: the command words (R72, R73), the encoder's response words (R76, R77) and the decoder's
(R78, R79). -/

namespace Sys2Proof.Machine

/-! Command words -/

theorem decodeWord_encCmd (w : CmdWord) : decodeWord ⟨.encCmd, w.toNat⟩ = .ok (decodeEnc w) := by
  simp [decodeWord, (Laws.EncodeFits.cmd w).1]

theorem decodeWord_decCmd (w : CmdWord) : decodeWord ⟨.decCmd, w.toNat⟩ = .ok (decodeDec w) := by
  simp [decodeWord, (Laws.EncodeFits.cmd w).2]

theorem cmdData_eq_setWidth (w : CmdWord) : cmdData w = w.setWidth 8 :=
  BitVec.setWidth_eq_extractLsb' (by decide) |>.symm

/-- The mask 0x300 keeps `last` and `has_data` and clears `data` (30_encoding.md R72). -/
theorem and_selectMask (w : CmdWord) : w &&& 0x300 = encodeCmd (cmdLast w) (cmdHasData w) 0 := by
  refine BitVec.eq_of_getLsbD_eq fun i hi => ?_
  simp only [encodeCmd, BitVec.getLsbD_and, BitVec.getLsbD_append]
  interval_cases i <;> simp [cmdLast, cmdHasData]

/-- Settles O4: under the mask a word is the word of its two selecting bits alone, and these four words are the four match
values. -/
theorem selectionByMaskAndMatch : Obligations.SelectionByMaskAndMatch := by
  intro w
  rw [decodeWord_encCmd, decodeWord_decCmd, and_selectMask, decodeEnc, decodeDec, cmdData_eq_setWidth]
  cases cmdLast w <;> cases cmdHasData w <;> simp [encodeCmd]

/-! The encoder's response words -/

/-- The padding character is no character of the alphabet (40_alphabet_lut.md R104). -/
theorem S2C_ne_PAD (v : Sym) : S2C v ≠ PAD := by
  revert v; decide

/-- The groups of characters an encoder command can emit, by the end mark beside them: padding stands only at the end of a
message (30_encoding.md R77). -/
inductive EmittedGroup : Bool → List Byte → Prop where
  | full (last : Bool) (v0 v1 v2 v3 : Sym) : EmittedGroup last [S2C v0, S2C v1, S2C v2, S2C v3]
  | tail2 (v0 v1 v2 : Sym) : EmittedGroup true [S2C v0, S2C v1, S2C v2, PAD]
  | tail1 (v0 v1 : Sym) : EmittedGroup true [S2C v0, S2C v1, PAD, PAD]

theorem emittedGroup_charsFull (last : Bool) (b0 b1 b2 : Byte) : EmittedGroup last (charsFull b0 b1 b2) := .full ..

theorem emittedGroup_charsTail2 (b0 b1 : Byte) : EmittedGroup true (charsTail2 b0 b1) := .tail2 ..

theorem emittedGroup_charsTail1 (b0 : Byte) : EmittedGroup true (charsTail1 b0) := .tail1 ..

/-- `ENC.PUSH` emits nothing or a group, never with the end mark (41_encoder.md R125). -/
theorem exec_encPush_next {b : Byte} {s t : State} (h : exec (.encPush b) s = .next t) :
    ∃ e cs, t = (s.setEnc e).respondEnc ⟨cs, false⟩ ∧ (cs = [] ∨ EmittedGroup false cs) := by
  simp only [exec, execEncPush] at h
  split_ifs at h <;> cases h
  · exact ⟨_, _, rfl, .inl rfl⟩
  · exact ⟨_, _, rfl, .inl rfl⟩
  · exact ⟨_, _, rfl, .inr (emittedGroup_charsFull ..)⟩

/-- `ENC.FLUSH` sets the end mark, and emits a group exactly where bytes are left over (41_encoder.md R126). -/
theorem exec_encFlush_next {s t : State} (h : exec .encFlush s = .next t) :
    ∃ e cs, t = (s.setEnc e).respondEnc ⟨cs, true⟩ ∧
      ((s.enc.cnt = 0 ∧ cs = []) ∨ (s.enc.cnt ≠ 0 ∧ EmittedGroup true cs)) := by
  simp only [exec, execEncFlush] at h
  split_ifs at h with h0 <;> cases h
  · exact ⟨_, _, rfl, .inl ⟨h0, rfl⟩⟩
  · exact ⟨_, _, rfl, .inr ⟨h0, emittedGroup_charsTail1 ..⟩⟩
  · exact ⟨_, _, rfl, .inr ⟨h0, emittedGroup_charsTail2 ..⟩⟩

/-- `ENC.PUSHL` sets the end mark and always emits a group (41_encoder.md R127). -/
theorem exec_encPushl_next {b : Byte} {s t : State} (h : exec (.encPushl b) s = .next t) :
    ∃ e cs, t = (s.setEnc e).respondEnc ⟨cs, true⟩ ∧ EmittedGroup true cs := by
  simp only [exec, execEncPushl] at h
  split_ifs at h <;> cases h
  · exact ⟨_, _, rfl, emittedGroup_charsTail1 ..⟩
  · exact ⟨_, _, rfl, emittedGroup_charsTail2 ..⟩
  · exact ⟨_, _, rfl, emittedGroup_charsFull ..⟩

/-- Every encoder command responds with no character or with a group. -/
theorem exec_encCmd_next {i : Instr} {s t : State} (hi : i.port = .encCmd) (h : exec i s = .next t) :
    ∃ e r, t = (s.setEnc e).respondEnc r ∧ (r.chars = [] ∨ EmittedGroup r.last r.chars) := by
  cases i with
  | encNop => cases h; exact ⟨s.enc, ⟨[], false⟩, rfl, .inl rfl⟩
  | encPush b =>
    obtain ⟨e, cs, ht, hcs⟩ := exec_encPush_next h
    exact ⟨e, _, ht, hcs⟩
  | encFlush =>
    obtain ⟨e, cs, ht, ⟨-, hcs⟩ | ⟨-, hcs⟩⟩ := exec_encFlush_next h
    · exact ⟨e, _, ht, .inl hcs⟩
    · exact ⟨e, _, ht, .inr hcs⟩
  | encPushl b =>
    obtain ⟨e, cs, ht, hcs⟩ := exec_encPushl_next h
    exact ⟨e, _, ht, .inr hcs⟩
  | _ => cases hi

@[simp] theorem EncRecord.pack_nil (l : Bool) : (EncRecord.mk [] l).pack = erspWord l false 0 0 0 0 := rfl

@[simp] theorem EncRecord.pack_four (l : Bool) (c0 c1 c2 c3 : Byte) :
    (EncRecord.mk [c0, c1, c2, c3] l).pack = erspWord l true c0 c1 c2 c3 := rfl

/-- A group is a beat with characters, with the end mark given beside it. -/
theorem EmittedGroup.fields {last : Bool} {cs : List Byte} (h : EmittedGroup last cs) :
    (EncRecord.mk cs last).nonnull = true ∧ (EncRecord.mk cs last).pack[33] = last ∧
      (EncRecord.mk cs last).pack[32] = true := by
  cases h <;> simp

theorem EmittedGroup.wellFormed {last : Bool} {cs : List Byte} (h : EmittedGroup last cs) :
    (EncRecord.mk cs last).wellFormed = true := by
  cases h <;> rfl

theorem EmittedGroup.erspShape {last : Bool} {cs : List Byte} (h : EmittedGroup last cs) :
    ErspShape true (EncRecord.mk cs last).pack := by
  cases h <;> simp [ErspShape, S2C_ne_PAD]

/-- A port that shows no character or a group shows a value `ERSP` can take. -/
theorem erspShape_of_showsEnc {p : Pins} {r : EncRecord} (hp : p.showsEnc r)
    (hr : r.chars = [] ∨ EmittedGroup r.last r.chars) : ErspShape p.encRspValid p.encRsp := by
  obtain ⟨hvalid, hword⟩ := hp
  obtain ⟨cs, last⟩ := r
  rw [hvalid, hword]
  obtain rfl | hg := hr
  · cases last <;> simp [ErspShape]
  · simpa only [hg.fields, if_true] using hg.erspShape

/-- The word of a valid beat of a well-formed record reads back as that record. -/
theorem unpackErsp_of_showsEnc {p : Pins} {r : EncRecord} (hp : p.showsEnc r) (hr : r.wellFormed = true)
    (hv : p.encRspValid = true) :
    ∃ q, unpackErsp p.encRsp = some q ∧ q.wellFormed = true ∧ q.pack = p.encRsp := by
  obtain ⟨hvalid, hword⟩ := hp
  have hpack : p.encRsp = r.pack := by rw [hword, ← hvalid, hv, if_pos rfl]
  exact ⟨r, by rw [hpack, unpackErsp_pack r hr], hr, hpack.symm⟩

/-- Settles O21: the fields by the packing's definition; the values by the records an encoder command can respond with, each
either without characters or an `EmittedGroup`. -/
theorem encoderResponseWords : Obligations.EncoderResponseWords := by
  refine ⟨fun l c0 c1 c2 c3 => ⟨rfl, rfl⟩, fun i s t hi h => ⟨?_, ?_, ?_, ?_, ?_⟩⟩
  · obtain ⟨e, r, rfl, hr⟩ := exec_encCmd_next hi h
    exact erspShape_of_showsEnc ⟨rfl, rfl⟩ hr
  · obtain ⟨e, ⟨cs, last⟩, rfl, hr⟩ := exec_encCmd_next hi h
    refine unpackErsp_of_showsEnc ⟨rfl, rfl⟩ ?_
    obtain rfl | hg := hr
    · rfl
    · exact hg.wellFormed
  · rintro b rfl hv
    obtain ⟨e, cs, rfl, rfl | hg⟩ := exec_encPush_next h
    · cases hv
    · simp [hg.fields]
  · rintro b rfl
    obtain ⟨e, cs, rfl, hg⟩ := exec_encPushl_next h
    simp [hg.fields]
  · rintro rfl
    obtain ⟨e, cs, rfl, ⟨h0, rfl⟩ | ⟨h0, hg⟩⟩ := exec_encFlush_next h
    · simp [h0]
    · simpa [hg.fields] using h0

/-! The decoder's response words -/

@[simp] theorem DecRecord.pack_nil (l : Bool) (k : Code) : (DecRecord.mk [] l k).pack = drspWord k l 0 0 0 0 := rfl

@[simp] theorem DecRecord.pack_one (l : Bool) (k : Code) (b0 : Byte) :
    (DecRecord.mk [b0] l k).pack = drspWord k l 1 b0 0 0 := rfl

@[simp] theorem DecRecord.pack_two (l : Bool) (k : Code) (b0 b1 : Byte) :
    (DecRecord.mk [b0, b1] l k).pack = drspWord k l 2 b0 b1 0 := rfl

@[simp] theorem DecRecord.pack_three (l : Bool) (k : Code) (b0 b1 b2 : Byte) :
    (DecRecord.mk [b0, b1, b2] l k).pack = drspWord k l 3 b0 b1 b2 := rfl

/-- A port that shows a well-formed record shows a value `DRSP` can take. -/
theorem drspShape_of_showsDec {p : Pins} {r : DecRecord} (hp : p.showsDec r) (hr : r.wellFormed = true) :
    DrspShape p.decRspValid p.decRsp := by
  obtain ⟨hvalid, hword⟩ := hp
  obtain ⟨bytes, last, status⟩ := r
  rw [hvalid, hword]
  simp only [DecRecord.wellFormed, Bool.and_eq_true, Bool.or_eq_true, decide_eq_true_eq, beq_iff_eq] at hr
  obtain ⟨⟨hlen, hlast⟩, hbytes⟩ := hr
  rcases bytes with _ | ⟨b0, _ | ⟨b1, _ | ⟨b2, _ | ⟨b3, rest⟩⟩⟩⟩
  case nil => cases last <;> simp [DrspShape]
  case cons.cons.cons.cons => simp at hlen; omega
  all_goals
    obtain rfl : status = .ok := by simpa using hbytes
    simp [DrspShape, Code.bits]

/-- The word of a valid beat of a well-formed record reads back as that record. -/
theorem unpackDrsp_of_showsDec {p : Pins} {r : DecRecord} (hp : p.showsDec r) (hr : r.wellFormed = true)
    (hv : p.decRspValid = true) :
    ∃ q, unpackDrsp p.decRsp = some q ∧ q.wellFormed = true ∧ q.pack = p.decRsp := by
  obtain ⟨hvalid, hword⟩ := hp
  have hpack : p.decRsp = r.pack := by rw [hword, ← hvalid, hv, if_pos rfl]
  exact ⟨r, by rw [hpack, unpackDrsp_pack r hr], hr, hpack.symm⟩

/-- Settles O28: the fields by the packing's definition; the values because a decoder command responds with a well-formed
record (`exec_decCmd`). -/
theorem decoderResponseWords : Obligations.DecoderResponseWords := by
  refine ⟨fun st l b0 b1 b2 => ⟨rfl, rfl, rfl, rfl, rfl, rfl, rfl, rfl⟩, fun i s t hi h => ?_⟩
  obtain ⟨d, r, hr, hnext⟩ := exec_decCmd i hi s.dec
  obtain rfl : (s.setDec d).respondDec r = t := Host.Outcome.next.inj ((hnext s rfl).symm.trans h)
  exact ⟨drspShape_of_showsDec ⟨rfl, rfl⟩ hr, unpackDrsp_of_showsDec ⟨rfl, rfl⟩ hr⟩

end Sys2Proof.Machine
end

section
/-! The statements of 41_encoder.md: the bit regrouping (R121 to R123) and the four encoder commands (R124 to R127). -/

namespace Sys2Proof.Machine

/-! Bit regrouping: the symbols as slices (R121) -/

theorem symTop_eq_slice (b0 : Byte) : symTop b0 = b0.extractLsb' 2 6 := by
  refine BitVec.eq_of_getLsbD_eq fun i hi => ?_
  simp only [symTop, BitVec.getLsbD_setWidth, BitVec.getLsbD_and, BitVec.getLsbD_extractLsb']
  interval_cases i <;> simp

theorem symSecond_eq_slices (b0 b1 : Byte) : symSecond b0 b1 = b0.extractLsb' 0 2 ++ b1.extractLsb' 4 4 := by
  refine BitVec.eq_of_getLsbD_eq fun i hi => ?_
  simp only [symSecond, BitVec.getLsbD_setWidth, BitVec.getLsbD_or, BitVec.getLsbD_append]
  interval_cases i <;> simp

theorem symThird_eq_slices (b1 b2 : Byte) : symThird b1 b2 = b1.extractLsb' 0 4 ++ b2.extractLsb' 6 2 := by
  refine BitVec.eq_of_getLsbD_eq fun i hi => ?_
  simp only [symThird, BitVec.getLsbD_setWidth, BitVec.getLsbD_or, BitVec.getLsbD_append]
  interval_cases i <;> simp

theorem symLow_eq_slice (b2 : Byte) : symLow b2 = b2.extractLsb' 0 6 := by
  refine BitVec.eq_of_getLsbD_eq fun i hi => ?_
  simp only [symLow, BitVec.getLsbD_setWidth, BitVec.getLsbD_and, BitVec.getLsbD_extractLsb']
  interval_cases i <;> simp

/-! The symbols as the source's formulas on natural numbers (R121): a mask of low ones is the remainder of a slice -/

theorem symTop_toNat (b0 : Byte) : (symTop b0).toNat = (b0.toNat >>> 2) &&& 0x3F := by
  rw [symTop_eq_slice, BitVec.extractLsb'_toNat, Nat.and_two_pow_sub_one_eq_mod _ 6]

theorem symSecond_toNat (b0 b1 : Byte) :
    (symSecond b0 b1).toNat = ((b0.toNat &&& 0x03) <<< 4) ||| ((b1.toNat >>> 4) &&& 0x0F) := by
  rw [symSecond_eq_slices, BitVec.toNat_append, BitVec.extractLsb'_toNat, BitVec.extractLsb'_toNat,
    Nat.and_two_pow_sub_one_eq_mod _ 2, Nat.and_two_pow_sub_one_eq_mod _ 4, Nat.shiftRight_zero]

theorem symThird_toNat (b1 b2 : Byte) :
    (symThird b1 b2).toNat = ((b1.toNat &&& 0x0F) <<< 2) ||| ((b2.toNat >>> 6) &&& 0x03) := by
  rw [symThird_eq_slices, BitVec.toNat_append, BitVec.extractLsb'_toNat, BitVec.extractLsb'_toNat,
    Nat.and_two_pow_sub_one_eq_mod _ 4, Nat.and_two_pow_sub_one_eq_mod _ 2, Nat.shiftRight_zero]

theorem symLow_toNat (b2 : Byte) : (symLow b2).toNat = b2.toNat &&& 0x3F := by
  rw [symLow_eq_slice, BitVec.extractLsb'_toNat, Nat.and_two_pow_sub_one_eq_mod _ 6, Nat.shiftRight_zero]

/-- The four symbols of three bytes are their 24 bits (R121). -/
theorem syms3_bits (b0 b1 b2 : Byte) :
    symTop b0 ++ symSecond b0 b1 ++ symThird b1 b2 ++ symLow b2 = b0 ++ b1 ++ b2 := by
  rw [symTop_eq_slice, symSecond_eq_slices, symThird_eq_slices, symLow_eq_slice]
  refine BitVec.eq_of_getLsbD_eq fun i hi => ?_
  simp only [BitVec.getLsbD_append, BitVec.getLsbD_extractLsb']
  interval_cases i <;> simp

/-- Settles O5: the symbols of `SYMS3` are slices of the bytes, and their values follow from the slices. -/
theorem fullGroupSymbols : Obligations.FullGroupSymbols := by
  intro b0 b1 b2
  exact ⟨_, _, _, _, rfl, symTop_toNat b0, symSecond_toNat b0 b1, symThird_toNat b1 b2, symLow_toNat b2,
    symTop_eq_slice b0, symSecond_eq_slices b0 b1, symThird_eq_slices b1 b2, symLow_eq_slice b2, syms3_bits b0 b1 b2⟩

/-! Tails: `SYMS3` with 0 for the absent bytes (R122, R123) -/

theorem tail2_eq (b0 b1 : Byte) : tail2 b0 b1 = (symTop b0, symSecond b0 b1, symThird b1 0) := by
  simp [tail2, symThird]

theorem tail1_eq (b0 : Byte) : tail1 b0 = (symTop b0, symSecond b0 0) := by
  simp [tail1, symSecond]

theorem tail2_bits (b0 b1 : Byte) : symTop b0 ++ symSecond b0 b1 ++ symThird b1 0 = b0 ++ b1 ++ 0#2 := by
  rw [symTop_eq_slice, symSecond_eq_slices, symThird_eq_slices]
  refine BitVec.eq_of_getLsbD_eq fun i hi => ?_
  simp only [BitVec.getLsbD_append, BitVec.getLsbD_extractLsb']
  interval_cases i <;> simp

theorem tail1_bits (b0 : Byte) : symTop b0 ++ symSecond b0 0 = b0 ++ 0#4 := by
  rw [symTop_eq_slice, symSecond_eq_slices]
  refine BitVec.eq_of_getLsbD_eq fun i hi => ?_
  simp only [BitVec.getLsbD_append, BitVec.getLsbD_extractLsb']
  interval_cases i <;> simp

theorem symThird_zero_toNat (b1 : Byte) : (symThird b1 0).toNat = (b1.toNat &&& 0x0F) <<< 2 := by
  simp [symThird_toNat]

theorem symSecond_zero_toNat (b0 : Byte) : (symSecond b0 0).toNat = (b0.toNat &&& 0x03) <<< 4 := by
  simp [symSecond_toNat]

/-- Settles O6: the tails are the first symbols of `SYMS3` with 0 for the absent bytes (`tail2_eq`, `tail1_eq`), so their
last symbol is a shifted value. -/
theorem tailSymbols : Obligations.TailSymbols := by
  intro b0 b1
  refine ⟨⟨_, _, _, tail2_eq b0 b1, symTop_toNat b0, symSecond_toNat b0 b1, symThird_zero_toNat b1, symTop_eq_slice b0,
    symSecond_eq_slices b0 b1, symThird_eq_slices b1 0, rfl, ?_⟩,
    ⟨_, _, tail1_eq b0, symTop_toNat b0, symSecond_zero_toNat b0, symTop_eq_slice b0, symSecond_eq_slices b0 0, rfl, ?_⟩⟩
  · rw [symThird_zero_toNat, Nat.shiftLeft_eq]
    exact Nat.mul_mod_left _ 4
  · rw [symSecond_zero_toNat, Nat.shiftLeft_eq]
    exact Nat.mul_mod_left _ 16

/-! The encoder commands -/

/-- An encoder's write and response touch nothing else (20_memory.md R59 point 3). -/
theorem encFrame_respondEnc (s : State) (e : EncRegs) (r : EncRecord) : EncFrame s ((s.setEnc e).respondEnc r) := by
  simp [EncFrame]

/-- A record with the end mark is a beat (30_encoding.md R75). -/
@[simp] theorem EncRecord.nonnull_last (cs : List Byte) : (EncRecord.mk cs true).nonnull = true := by
  simp [EncRecord.nonnull]

/-- The bytes the encoder holds back, `enc.cnt` of them (10_state.md R21, R22). -/
def EncRegs.leftover (e : EncRegs) : List Byte := [e.b0, e.b1].take e.cnt.toNat

theorem EncRegs.leftover_of_cnt_zero {e : EncRegs} (h : e.cnt = 0) : e.leftover = [] := by simp [leftover, h]

theorem EncRegs.leftover_of_cnt_one {e : EncRegs} (h : e.cnt = 1) : e.leftover = [e.b0] := by simp [leftover, h]

theorem EncRegs.leftover_of_cnt_two {e : EncRegs} (h : e.cnt = 2) : e.leftover = [e.b0, e.b1] := by simp [leftover, h]

theorem exec_encNop (s : State) : exec .encNop s = .next ((s.setEnc s.enc).respondEnc ⟨[], false⟩) := rfl

/-- `ENC.PUSH` of the first byte of a group stores it (41_encoder.md R125). -/
theorem exec_encPush_of_cnt_zero (b : Byte) {s : State} (h : s.enc.cnt = 0) :
    exec (.encPush b) s = .next ((s.setEnc { s.enc with b0 := b, cnt := 1 }).respondEnc ⟨[], false⟩) := by
  simp [exec, execEncPush, h]

/-- `ENC.PUSH` of the second byte of a group stores it (41_encoder.md R125). -/
theorem exec_encPush_of_cnt_one (b : Byte) {s : State} (h : s.enc.cnt = 1) :
    exec (.encPush b) s = .next ((s.setEnc { s.enc with b1 := b, cnt := 2 }).respondEnc ⟨[], false⟩) := by
  simp [exec, execEncPush, h]

/-- `ENC.PUSH` of the third byte of a group emits the group (41_encoder.md R125). -/
theorem exec_encPush_of_cnt_two (b : Byte) {s : State} (h : s.enc.cnt = 2) :
    exec (.encPush b) s = .next ((s.setEnc EncRegs.reset).respondEnc ⟨charsFull s.enc.b0 s.enc.b1 b, false⟩) := by
  simp [exec, execEncPush, h, EncRegs.reset]

/-- `ENC.FLUSH` encodes the leftover bytes, with the end mark, and resets the encoder (41_encoder.md R126). -/
theorem exec_encFlush {s : State} (hs : s.enc.cnt ≠ 3) :
    exec .encFlush s = .next ((s.setEnc EncRegs.reset).respondEnc ⟨encodeBytes s.enc.leftover, true⟩) := by
  rcases two_bit_cases s.enc.cnt with h | h | h | h
  · simp [exec, execEncFlush, h, EncRegs.leftover_of_cnt_zero h, encodeBytes, EncRegs.reset]
  · simp [exec, execEncFlush, h, EncRegs.leftover_of_cnt_one h, encodeBytes, EncRegs.reset]
  · simp [exec, execEncFlush, h, EncRegs.leftover_of_cnt_two h, encodeBytes, EncRegs.reset]
  · exact absurd h hs

/-- `ENC.PUSHL` encodes the leftover bytes and its own, with the end mark, and resets the encoder (41_encoder.md R127). -/
theorem exec_encPushl (b : Byte) {s : State} (hs : s.enc.cnt ≠ 3) :
    exec (.encPushl b) s = .next ((s.setEnc EncRegs.reset).respondEnc ⟨encodeBytes (s.enc.leftover ++ [b]), true⟩) := by
  rcases two_bit_cases s.enc.cnt with h | h | h | h
  · simp [exec, execEncPushl, h, EncRegs.leftover_of_cnt_zero h, encodeBytes, EncRegs.reset]
  · simp [exec, execEncPushl, h, EncRegs.leftover_of_cnt_one h, encodeBytes, EncRegs.reset]
  · simp [exec, execEncPushl, h, EncRegs.leftover_of_cnt_two h, encodeBytes, EncRegs.reset]
  · exact absurd h hs

/-! The words of a group and of the tails (30_encoding.md R76): their symbols are the bytes' bits -/

theorem pack_charsFull (b0 b1 b2 : Byte) (l : Bool) :
    ∃ s0 s1 s2 s3 : Sym, s0 ++ s1 ++ s2 ++ s3 = b0 ++ b1 ++ b2 ∧
      (EncRecord.mk (charsFull b0 b1 b2) l).pack = BitVec.ofBool l ++ 1#1 ++ S2C s3 ++ S2C s2 ++ S2C s1 ++ S2C s0 :=
  ⟨_, _, _, _, syms3_bits b0 b1 b2, rfl⟩

theorem pack_charsTail2 (b0 b1 : Byte) (l : Bool) :
    ∃ s0 s1 s2 : Sym, s0 ++ s1 ++ s2 = b0 ++ b1 ++ 0#2 ∧
      (EncRecord.mk (charsTail2 b0 b1) l).pack = BitVec.ofBool l ++ 1#1 ++ 0x3D#8 ++ S2C s2 ++ S2C s1 ++ S2C s0 :=
  ⟨_, _, _, tail2_bits b0 b1, by rw [charsTail2, tail2_eq]; rfl⟩

theorem pack_charsTail1 (b0 : Byte) (l : Bool) :
    ∃ s0 s1 : Sym, s0 ++ s1 = b0 ++ 0#4 ∧
      (EncRecord.mk (charsTail1 b0) l).pack = BitVec.ofBool l ++ 1#1 ++ 0x3D#8 ++ 0x3D#8 ++ S2C s1 ++ S2C s0 :=
  ⟨_, _, tail1_bits b0, by rw [charsTail1, tail1_eq]; rfl⟩

/-- Settles O14: `ENC.NOP` writes the registers it finds and responds with the null record. -/
theorem encNopChangesNothing : Obligations.EncNopChangesNothing :=
  fun s => ⟨_, exec_encNop s, rfl, rfl, rfl, encFrame_respondEnc ..⟩

/-- Settles O15, by the count: the first two bytes of a group are stored, the third emits the group. -/
theorem encPushResult : Obligations.EncPushResult := by
  intro b s hs
  rcases two_bit_cases s.enc.cnt with h | h | h | h
  · exact ⟨_, exec_encPush_of_cnt_zero b h, encFrame_respondEnc .., by simp [h]⟩
  · exact ⟨_, exec_encPush_of_cnt_one b h, encFrame_respondEnc .., by simp [h]⟩
  · refine ⟨_, exec_encPush_of_cnt_two b h, encFrame_respondEnc .., by simp [h], by simp [h], fun _ => ⟨rfl, rfl, ?_⟩⟩
    exact pack_charsFull s.enc.b0 s.enc.b1 b false
  · exact absurd h hs

/-- Settles O16: the word is that of the encoded leftover bytes, of which the count says how many there are. -/
theorem encFlushResult : Obligations.EncFlushResult := by
  intro s hs
  refine ⟨_, exec_encFlush hs, encFrame_respondEnc .., rfl, by simp, fun h => ?_, fun h => ?_, fun h => ?_⟩
  · rw [EncRegs.leftover_of_cnt_zero h]; rfl
  · rw [EncRegs.leftover_of_cnt_one h]
    exact pack_charsTail1 s.enc.b0 true
  · rw [EncRegs.leftover_of_cnt_two h]
    exact pack_charsTail2 s.enc.b0 s.enc.b1 true

/-- Settles O17: the word is that of the encoded leftover bytes and the byte pushed, one to three in all. -/
theorem encPushlResult : Obligations.EncPushlResult := by
  intro b s hs
  refine ⟨_, exec_encPushl b hs, encFrame_respondEnc .., rfl, by simp, fun h => ?_, fun h => ?_, fun h => ?_⟩
  · rw [EncRegs.leftover_of_cnt_zero h]
    exact pack_charsTail1 b true
  · rw [EncRegs.leftover_of_cnt_one h]
    exact pack_charsTail2 s.enc.b0 b true
  · rw [EncRegs.leftover_of_cnt_two h]
    exact pack_charsFull s.enc.b0 s.enc.b1 b true

end Sys2Proof.Machine
end

section
/-! The statements of 42_decoder.md: the bytes of a group (R151), the four decoder commands (R153 to R157) and the bits of a
tail that are ignored (R158). -/

namespace Sys2Proof.Machine

/-! The bytes of a group as slices (R151) -/

theorem byteFirst_eq_slices (s0 s1 : Sym) : byteFirst s0 s1 = s0 ++ s1.extractLsb' 4 2 := by
  refine BitVec.eq_of_getLsbD_eq fun i hi => ?_
  simp only [byteFirst, BitVec.getLsbD_or, BitVec.getLsbD_append]
  interval_cases i <;> simp

theorem byteSecond_eq_slices (s1 s2 : Sym) : byteSecond s1 s2 = s1.extractLsb' 0 4 ++ s2.extractLsb' 2 4 := by
  refine BitVec.eq_of_getLsbD_eq fun i hi => ?_
  simp only [byteSecond, BitVec.getLsbD_or, BitVec.getLsbD_append]
  interval_cases i <;> simp

theorem byteThird_eq_slices (s2 s3 : Sym) : byteThird s2 s3 = s2.extractLsb' 0 2 ++ s3 := by
  refine BitVec.eq_of_getLsbD_eq fun i hi => ?_
  simp only [byteThird, BitVec.getLsbD_or, BitVec.getLsbD_append]
  interval_cases i <;> simp

/-! The bytes as the source's formulas on natural numbers (R151) -/

theorem byteFirst_toNat (s0 s1 : Sym) : (byteFirst s0 s1).toNat = (s0.toNat <<< 2) ||| (s1.toNat >>> 4) := by
  have h : s1.toNat >>> 4 < 2 ^ 2 := by omega
  rw [byteFirst_eq_slices, BitVec.toNat_append, BitVec.extractLsb'_toNat, Nat.mod_eq_of_lt h]

theorem byteSecond_toNat (s1 s2 : Sym) :
    (byteSecond s1 s2).toNat = ((s1.toNat &&& 0x0F) <<< 4) ||| (s2.toNat >>> 2) := by
  have h : s2.toNat >>> 2 < 2 ^ 4 := by omega
  rw [byteSecond_eq_slices, BitVec.toNat_append, BitVec.extractLsb'_toNat, BitVec.extractLsb'_toNat, Nat.mod_eq_of_lt h,
    Nat.and_two_pow_sub_one_eq_mod _ 4, Nat.shiftRight_zero]

theorem byteThird_toNat (s2 s3 : Sym) : (byteThird s2 s3).toNat = ((s2.toNat &&& 0x03) <<< 6) ||| s3.toNat := by
  rw [byteThird_eq_slices, BitVec.toNat_append, BitVec.extractLsb'_toNat, Nat.and_two_pow_sub_one_eq_mod _ 2,
    Nat.shiftRight_zero]

/-! A group's bytes are its symbols' bits, from the top (R151) -/

theorem bytes3_bits (s0 s1 s2 s3 : Sym) :
    byteFirst s0 s1 ++ byteSecond s1 s2 ++ byteThird s2 s3 = s0 ++ s1 ++ s2 ++ s3 := by
  rw [byteFirst_eq_slices, byteSecond_eq_slices, byteThird_eq_slices]
  refine BitVec.eq_of_getLsbD_eq fun i hi => ?_
  simp only [BitVec.getLsbD_append, BitVec.getLsbD_extractLsb']
  interval_cases i <;> simp

theorem byteFirst_eq_window (s0 s1 : Sym) : byteFirst s0 s1 = (s0 ++ s1).extractLsb' 4 8 := by
  rw [byteFirst_eq_slices]
  refine BitVec.eq_of_getLsbD_eq fun i hi => ?_
  simp only [BitVec.getLsbD_append, BitVec.getLsbD_extractLsb']
  interval_cases i <;> simp

theorem byteSecond_eq_window (s0 s1 s2 : Sym) : byteSecond s1 s2 = (s0 ++ s1 ++ s2).extractLsb' 2 8 := by
  rw [byteSecond_eq_slices]
  refine BitVec.eq_of_getLsbD_eq fun i hi => ?_
  simp only [BitVec.getLsbD_append, BitVec.getLsbD_extractLsb']
  interval_cases i <;> simp

theorem bytes1_eq (s0 s1 : Sym) : bytes1 s0 s1 = [(s0 ++ s1).extractLsb' 4 8] := by
  rw [bytes1, byteFirst_eq_window]

theorem bytes2_eq (s0 s1 s2 : Sym) :
    bytes2 s0 s1 s2 = [(s0 ++ s1 ++ s2).extractLsb' 10 8, (s0 ++ s1 ++ s2).extractLsb' 2 8] := by
  rw [bytes2, byteFirst_eq_window, byteSecond_eq_window s0, BitVec.extractLsb'_append_eq_of_le (start := 10) (by decide)]

/-- The parts of a concatenation are fixed by it. -/
theorem bitVec_append_inj {m n : Nat} {x x' : BitVec m} {y y' : BitVec n} (h : x ++ y = x' ++ y') : x = x' ∧ y = y' := by
  have hx := congrArg (BitVec.extractLsb' n m) h
  have hy := congrArg (BitVec.extractLsb' 0 n) h
  simp only [BitVec.extractLsb'_append_eq_left, BitVec.extractLsb'_append_eq_right] at hx hy
  exact ⟨hx, hy⟩

/-- Four symbols are the symbols of three bytes exactly where they have the same 24 bits (R121, R151). -/
theorem syms3_eq_iff_bits (b0 b1 b2 : Byte) (s0 s1 s2 s3 : Sym) :
    syms3 b0 b1 b2 = (s0, s1, s2, s3) ↔ b0 ++ b1 ++ b2 = s0 ++ s1 ++ s2 ++ s3 := by
  rw [← syms3_bits]
  constructor
  · rintro h
    cases h
    rfl
  · intro h
    obtain ⟨h, h3⟩ := bitVec_append_inj h
    obtain ⟨h, h2⟩ := bitVec_append_inj h
    obtain ⟨h0, h1⟩ := bitVec_append_inj h
    rw [syms3, h0, h1, h2, h3]

/-- Settles O7: the bytes are slices of the symbols, and `BYTES3` inverts `SYMS3` because each keeps the 24 bits of a group
(`syms3_eq_iff_bits`). The name `groupBytes` is a function's of the model. -/
theorem groupBytes_holds : Obligations.GroupBytes := by
  intro s0 s1 s2 s3
  refine ⟨_, _, _, rfl, rfl, rfl, byteFirst_toNat s0 s1, byteSecond_toNat s1 s2, byteThird_toNat s2 s3,
    byteFirst_eq_slices s0 s1, byteSecond_eq_slices s1 s2, byteThird_eq_slices s2 s3, bytes3_bits s0 s1 s2 s3,
    (syms3_eq_iff_bits ..).2 (bytes3_bits s0 s1 s2 s3), fun c0 c1 c2 h => ?_⟩
  have hbits := (bytes3_bits s0 s1 s2 s3).trans ((syms3_eq_iff_bits ..).1 h).symm
  obtain ⟨hbits, h2⟩ := bitVec_append_inj hbits
  obtain ⟨h0, h1⟩ := bitVec_append_inj hbits
  rw [bytes3, h0, h1, h2]

/-! The character step (R153): the registers and the bytes it leaves, arm by arm -/

section CharStepArms

variable {d : DecRegs} {c : Byte}

theorem DecRegs.char_of_err (he : d.err ≠ .ok) : d.char c = (d.advance, []) := by
  simpa [he] using d.char_cases c

theorem DecRegs.char_of_inv (he : d.err = .ok) (hk : (C2S c).1 = .inv) :
    d.char c = (d.advance.raise .invalidSymbol, []) := by
  simpa [he, hk] using d.char_cases c

theorem DecRegs.char_of_sym_after_padding (he : d.err = .ok) (hk : (C2S c).1 = .sym)
    (hp : d.closed = true ∨ d.pad2 = true) : d.char c = (d.advance.raise .malformedPadding, []) := by
  have ha : d.afterPadding = true := by simpa [DecRegs.afterPadding] using hp
  simpa [he, hk, ha] using d.char_cases c

theorem DecRegs.char_of_sym (he : d.err = .ok) (hk : (C2S c).1 = .sym) (hc : d.closed = false) (hp : d.pad2 = false) :
    d.char c = d.acceptSym (C2S c).2 := by
  have ha : d.afterPadding = false := by simp [DecRegs.afterPadding, hc, hp]
  simpa [he, hk, ha] using d.char_cases c

theorem DecRegs.char_of_pad_misplaced (he : d.err = .ok) (hk : (C2S c).1 = .pad)
    (hp : d.closed = true ∨ d.pos = 0 ∨ d.pos = 1) :
    d.char c = (d.advance.raise .malformedPadding, []) := by
  have hm : d.padMisplaced = true := by rcases hp with h | h | h <;> simp [DecRegs.padMisplaced, h]
  simpa [he, hk, hm] using d.char_cases c

theorem DecRegs.char_of_pad (he : d.err = .ok) (hk : (C2S c).1 = .pad) (hc : d.closed = false)
    (hp : d.pos = 2 ∨ d.pos = 3) : d.char c = d.acceptPad := by
  have hm : d.padMisplaced = false := by rcases hp with h | h <;> simp [DecRegs.padMisplaced, hc, h]
  simpa [he, hk, hm] using d.char_cases c

theorem DecRegs.acceptSym_at_zero (v : Sym) (hp : d.pos = 0) : d.acceptSym v = ({ d with pos := 1, s0 := v }, []) := by
  simp [DecRegs.acceptSym, DecRegs.advance, hp]

theorem DecRegs.acceptSym_at_one (v : Sym) (hp : d.pos = 1) : d.acceptSym v = ({ d with pos := 2, s1 := v }, []) := by
  simp [DecRegs.acceptSym, DecRegs.advance, hp]

theorem DecRegs.acceptSym_at_two (v : Sym) (hp : d.pos = 2) : d.acceptSym v = ({ d with pos := 3, s2 := v }, []) := by
  simp [DecRegs.acceptSym, DecRegs.advance, hp]

theorem DecRegs.acceptSym_at_three (v : Sym) (hp : d.pos = 3) :
    d.acceptSym v = ({ d with pos := 0, s0 := 0, s1 := 0, s2 := 0 }, bytes3 d.s0 d.s1 d.s2 v) := by
  simp [DecRegs.acceptSym, DecRegs.completeGroup, DecRegs.advance, hp]

theorem DecRegs.acceptPad_at_two (hp : d.pos = 2) : d.acceptPad = ({ d with pos := 3, pad2 := true }, []) := by
  simp [DecRegs.acceptPad, DecRegs.advance, hp]

/-- The second or only padding character closes the message; `dec.pad2` says how many symbols the group has. -/
theorem DecRegs.acceptPad_at_three (hp : d.pos = 3) :
    d.acceptPad = ({ d with pos := 0, s0 := 0, s1 := 0, s2 := 0, pad2 := false, closed := true },
      if d.pad2 then bytes1 d.s0 d.s1 else bytes2 d.s0 d.s1 d.s2) := by
  cases hb : d.pad2 <;> simp [DecRegs.acceptPad, DecRegs.completeGroup, DecRegs.advance, hp, hb]

end CharStepArms

/-- The model's character step is the one R153 writes. -/
theorem charStep_char (d : DecRegs) (c : Byte) : CharStep d c (d.char c).1 (d.char c).2 := by
  refine ⟨fun he => ?_, fun he hk => ?_, fun he hk hp => ?_, fun he hk hc hp => ?_, fun he hk hp => ?_,
    fun he hk hc hp => ?_, fun he hk hc hp => ?_⟩
  · rw [DecRegs.char_of_err he]; exact ⟨rfl, rfl⟩
  · rw [DecRegs.char_of_inv he hk]; exact ⟨rfl, rfl⟩
  · rw [DecRegs.char_of_sym_after_padding he hk hp]; exact ⟨rfl, rfl⟩
  · rw [DecRegs.char_of_sym he hk hc hp]
    refine ⟨fun h => ?_, fun h => ?_, fun h => ?_, fun h => ?_⟩
    · rw [DecRegs.acceptSym_at_zero _ h]; exact ⟨rfl, rfl⟩
    · rw [DecRegs.acceptSym_at_one _ h]; exact ⟨rfl, rfl⟩
    · rw [DecRegs.acceptSym_at_two _ h]; exact ⟨rfl, rfl⟩
    · rw [DecRegs.acceptSym_at_three _ h]; exact ⟨rfl, _, _, _, rfl, bytes3_bits ..⟩
  · rw [DecRegs.char_of_pad_misplaced he hk hp]; exact ⟨rfl, rfl⟩
  · rw [DecRegs.char_of_pad he hk hc (.inl hp), DecRegs.acceptPad_at_two hp]; exact ⟨rfl, rfl⟩
  · rw [DecRegs.char_of_pad he hk hc (.inr hp), DecRegs.acceptPad_at_three hp]
    refine ⟨rfl, fun h => ?_, fun h => ?_⟩
    · rw [h]; exact bytes1_eq ..
    · rw [h]; exact bytes2_eq ..

/-! The decoder commands -/

theorem exec_decNop (s : State) : exec .decNop s = .next ((s.setDec s.dec).respondDec ⟨[], false, .ok⟩) := rfl

theorem exec_decEnd (s : State) :
    exec .decEnd s = .next ((s.setDec DecRegs.reset).respondDec ⟨[], true, s.dec.endStatus⟩) := rfl

theorem exec_decPushl (c : Byte) (s : State) :
    exec (.decPushl c) s = .next ((s.setDec DecRegs.reset).respondDec
      ⟨(s.dec.char c).2, true, (s.dec.char c).1.endStatus⟩) := rfl

/-- A decoder's write and response touch nothing else (20_memory.md R59 point 3). -/
theorem decFrame_respondDec (s : State) (d : DecRegs) (r : DecRecord) : DecFrame s ((s.setDec d).respondDec r) := by
  simp [DecFrame]

/-- A record with the end mark is a beat (30_encoding.md R75). -/
@[simp] theorem DecRecord.nonnull_last (bs : List Byte) (k : Code) : (DecRecord.mk bs true k).nonnull = true := by
  simp [DecRecord.nonnull]

/-- A record without the end mark is a beat exactly where it has a byte (30_encoding.md R75). -/
@[simp] theorem DecRecord.nonnull_not_last (bs : List Byte) (k : Code) :
    (DecRecord.mk bs false k).nonnull = !bs.isEmpty := by
  simp [DecRecord.nonnull]

/-- The ports show the record responded with. Where there is no beat this is so because a well-formed null record is the one
with nothing in it (30_encoding.md R78, R80). -/
theorem shownDec_respondDec (s : State) {r : DecRecord} (hr : r.wellFormed = true) : shownDec (s.respondDec r) = r := by
  cases hn : r.nonnull with
  | true => simp [shownDec, hn, unpackDrsp_pack r hr]
  | false =>
    obtain ⟨bytes, last, status⟩ := r
    obtain ⟨rfl, rfl⟩ : bytes = [] ∧ last = false := by simpa [DecRecord.nonnull] using hn
    obtain rfl : status = .ok := by simpa [DecRecord.wellFormed] using hr
    simp [shownDec]

theorem DecRegs.wellFormed_char (d : DecRegs) (c : Byte) : (DecRecord.mk (d.char c).2 false .ok).wellFormed = true := by
  simp [DecRecord.wellFormed, (d.char_out c).1]

/-- A character step that emits bytes ends a message well: its group is complete and no error is latched. -/
theorem DecRegs.endStatus_of_char_out {d : DecRegs} {c : Byte} (h : (d.char c).2 ≠ []) :
    (d.char c).1.endStatus = .ok := by
  obtain ⟨hpos, herr⟩ := (d.char_out c).2 h
  rw [DecRegs.endStatus, if_pos hpos, herr]

theorem DecRegs.wellFormed_char_end (d : DecRegs) (c : Byte) :
    (DecRecord.mk (d.char c).2 true (d.char c).1.endStatus).wellFormed = true := by
  by_cases h : (d.char c).2 = []
  · simp [DecRecord.wellFormed, h]
  · simp [DecRecord.wellFormed, DecRegs.endStatus_of_char_out h, (d.char_out c).1]

/-- Settles O23: `DEC.NOP` writes the registers it finds and responds with the null record. -/
theorem decNopChangesNothing : Obligations.DecNopChangesNothing :=
  fun s => ⟨_, exec_decNop s, rfl, rfl, rfl, decFrame_respondDec ..⟩

/-- Settles O24: the command writes what the character step leaves and responds with what it emits (`charStep_char`). -/
theorem decPushResult : Obligations.DecPushResult := by
  intro c s
  refine ⟨_, (s.dec.char c).2, exec_decPush c s, decFrame_respondDec .., charStep_char s.dec c,
    DecRecord.nonnull_not_last .., shownDec_respondDec _ (s.dec.wellFormed_char c), fun h => ?_⟩
  simp [h]

/-- Settles O25, by the position and the latched error: they give the status, and the word is that of a record with no byte. -/
theorem decEndResult : Obligations.DecEndResult := by
  refine fun s => ⟨_, exec_decEnd s, decFrame_respondDec .., rfl, rfl, fun hp => ?_, fun hp he => ?_, fun hp he => ?_,
    fun hp he => ?_⟩
  · rw [DecRegs.endStatus, if_neg hp]; rfl
  all_goals rw [DecRegs.endStatus, if_pos hp, he]; rfl

/-- Settles O26: the registers the character step leaves give the status, and bytes are emitted only where it is `OK`. -/
theorem decPushlResult : Obligations.DecPushlResult := by
  intro c s
  have hshown := shownDec_respondDec (s.setDec DecRegs.reset) (s.dec.wellFormed_char_end c)
  refine ⟨_, (s.dec.char c).1, (s.dec.char c).2, exec_decPushl c s, decFrame_respondDec .., charStep_char s.dec c, rfl,
    DecRecord.nonnull_last .., ?_, fun h => ?_⟩
  · rw [hshown, DecRegs.endStatus, ite_not]
  · rw [hshown]
    exact DecRegs.endStatus_of_char_out h

/-! The bits of a tail that are ignored (R158) -/

theorem C2S_S2C (v : Sym) : C2S (S2C v) = (.sym, v) := by
  revert v; decide

theorem C2S_PAD : C2S PAD = (.pad, 0) := by decide

/-- Two symbols and two padding characters are one byte (43_message_contract.md R191). -/
theorem decodeText_two_padding (u v : Sym) : decodeText [S2C u, S2C v, PAD, PAD] = .ok (bytes1 u v) := by
  have hfirst : firstViolation [S2C u, S2C v, PAD, PAD] = none := by
    simp [firstViolation, List.range_succ, violationAt, padBefore, C2S_S2C, C2S_PAD]
  simp [decodeText, hfirst, Machine.groupBytes, C2S_S2C, C2S_PAD]

/-- A second symbol enters a group of two only by its upper bits. -/
theorem bytes1_congr (s0 : Sym) {x y : Sym} (h : x.extractLsb' 4 2 = y.extractLsb' 4 2) : bytes1 s0 x = bytes1 s0 y := by
  rw [bytes1, bytes1, byteFirst_eq_slices, byteFirst_eq_slices, h]

/-- A third symbol enters a group of three only by its upper bits. -/
theorem bytes2_congr (s0 s1 : Sym) {x y : Sym} (h : x.extractLsb' 2 4 = y.extractLsb' 2 4) :
    bytes2 s0 s1 x = bytes2 s0 s1 y := by
  rw [bytes2, bytes2, byteSecond_eq_slices, byteSecond_eq_slices, h]

/-- A character has the same effect wherever the character step leaves the same. -/
theorem exec_decChar_congr {c : Byte} {d d' : DecRegs} (s : State) (h : d.char c = d'.char c) :
    exec (.decPush c) { s with dec := d } = exec (.decPush c) { s with dec := d' } ∧
      exec (.decPushl c) { s with dec := d } = exec (.decPushl c) { s with dec := d' } := by
  simp [exec_decPush, exec_decPushl, h, State.setDec]

/-- The padding character that completes a group leaves the message closed and emits the group's bytes. -/
theorem DecRegs.char_pad_at_three {d : DecRegs} (he : d.err = .ok) (hc : d.closed = false) (hp : d.pos = 3) :
    d.char PAD = ({ d with pos := 0, s0 := 0, s1 := 0, s2 := 0, pad2 := false, closed := true },
      if d.pad2 then bytes1 d.s0 d.s1 else bytes2 d.s0 d.s1 d.s2) := by
  rw [DecRegs.char_of_pad he (by rw [C2S_PAD]) hc (.inr hp), DecRegs.acceptPad_at_three hp]

/-- The third symbol of a group with one padding character counts only by its upper bits, and is cleared. -/
theorem DecRegs.char_pad_congr_s2 {d : DecRegs} (he : d.err = .ok) (hc : d.closed = false) (hp : d.pos = 3)
    (hb : d.pad2 = false) {x y : Sym} (h : x.extractLsb' 2 4 = y.extractLsb' 2 4) :
    { d with s2 := x }.char PAD = { d with s2 := y }.char PAD := by
  have hchar (v : Sym) := DecRegs.char_pad_at_three (d := { d with s2 := v }) he hc hp
  rw [hchar, hchar]
  simp [hb, bytes2_congr d.s0 d.s1 h]

/-- The second symbol of a group with two padding characters counts only by its upper bits, and is cleared. -/
theorem DecRegs.char_pad_congr_s1 {d : DecRegs} (he : d.err = .ok) (hc : d.closed = false) (hp : d.pos = 3)
    (hb : d.pad2 = true) {x y : Sym} (h : x.extractLsb' 4 2 = y.extractLsb' 4 2) :
    { d with s1 := x }.char PAD = { d with s1 := y }.char PAD := by
  have hchar (v : Sym) := DecRegs.char_pad_at_three (d := { d with s1 := v }) he hc hp
  rw [hchar, hchar]
  simp [hb, bytes1_congr d.s0 h]

/-- Settles O35: a command depends on the registers by its character step alone, and the step of the last padding character
uses only the upper bits of the symbol before the padding. -/
theorem unusedTailBitsAreIgnored : Obligations.UnusedTailBitsAreIgnored := by
  refine ⟨fun v hv => ?_, fun s x y he hc hp => ⟨fun hb hxy => ?_, fun hb hxy => ?_⟩⟩
  · have h16 : bytes1 16 v = bytes1 16 16 := bytes1_congr 16 hv
    exact (decodeText_two_padding 16 v).trans (congrArg Except.ok h16)
  · exact exec_decChar_congr s (DecRegs.char_pad_congr_s2 he hc hp hb hxy)
  · exact exec_decChar_congr s (DecRegs.char_pad_congr_s1 he hc hp hb hxy)

end Sys2Proof.Machine
end

section
/-! The statements of 43_message_contract.md about the reference functions: the round trip (R194), the lengths and the
alphabet of what `encode` gives (R195 to R197), the length check of `decode` (R198) and the strings `decode` accepts (R200). -/

namespace Sys2Proof.Machine

/-! Characters by class: only the forward ROM's entries are symbols, and only `PAD` is padding (40_alphabet_lut.md R105) -/

theorem S2C_C2S_of_sym : ∀ {c : Byte}, (C2S c).1 = .sym → S2C (C2S c).2 = c := by
  decide

theorem eq_PAD_of_pad : ∀ {c : Byte}, (C2S c).1 = .pad → c = PAD := by
  decide

/-! The violations of a string (R191 step 2) -/

@[simp] theorem padBefore_zero (S : List Byte) : padBefore S 0 = false := by
  simp [padBefore]

@[simp] theorem padBefore_cons_succ (c : Byte) (S : List Byte) (k : Nat) :
    padBefore (c :: S) (k + 1) = ((C2S c).1 == .pad || padBefore S k) := by
  simp [padBefore]

/-- An index without a violation holds a symbol with no padding before it, or padding in the last two places of its group
with no padding before the group. -/
theorem char_of_violationAt_none {S : List Byte} {i : Nat} (h : violationAt S i = none) :
    (padBefore S i = false ∧ ∃ v, S.getD i 0 = S2C v) ∨
      (2 ≤ i % 4 ∧ padBefore S (4 * (i / 4)) = false ∧ S.getD i 0 = PAD) := by
  unfold violationAt at h
  split at h
  next => cases h
  next hk => exact .inl ⟨by simpa using h, _, (S2C_C2S_of_sym hk).symm⟩
  next hk =>
    obtain ⟨hi, hp⟩ : 1 < i % 4 ∧ padBefore S (4 * (i / 4)) = false := by simpa using h
    exact .inr ⟨hi, hp, eq_PAD_of_pad hk⟩

/-- Four symbols before a string shift its violations by one group and add none. -/
theorem violationAt_sym_group (v0 v1 v2 v3 : Sym) (S : List Byte) (i : Nat) :
    violationAt (S2C v0 :: S2C v1 :: S2C v2 :: S2C v3 :: S) (i + 4) = violationAt S i := by
  have hstart : 4 * ((i + 4) / 4) = 4 * (i / 4) + 4 := by omega
  simp only [violationAt, hstart]
  simp [C2S_S2C]

theorem firstViolation_eq_none {S : List Byte} : firstViolation S = none ↔ ∀ i < S.length, violationAt S i = none := by
  simp [firstViolation]

theorem firstViolation_sym_group (v0 v1 v2 v3 : Sym) (S : List Byte) :
    firstViolation (S2C v0 :: S2C v1 :: S2C v2 :: S2C v3 :: S) = none ↔ firstViolation S = none := by
  simp only [firstViolation_eq_none, List.length_cons, Nat.forall_lt_succ_left, violationAt_sym_group]
  simp [violationAt, C2S_S2C]

/-- `decode` succeeds where neither the length nor a character is at fault, and then gives the groups' bytes (R191). -/
theorem decodeText_eq_ok {S B : List Byte} :
    decodeText S = .ok B ↔ S.length % 4 = 0 ∧ firstViolation S = none ∧ groupBytes S = B := by
  unfold decodeText
  by_cases hlen : S.length % 4 = 0
  · cases firstViolation S <;> simp [hlen]
  · simp [hlen]

/-! The strings `decode` accepts, group by group -/

/-- `S` is groups of four symbols, the last group perhaps with one or two padding characters in place of its last symbols, and
`B` is the groups' bytes. -/
inductive Accepted : List Byte → List Byte → Prop where
  | nil : Accepted [] []
  | group (v0 v1 v2 v3 : Sym) {S B : List Byte} (rest : Accepted S B) :
      Accepted (S2C v0 :: S2C v1 :: S2C v2 :: S2C v3 :: S) (bytes3 v0 v1 v2 v3 ++ B)
  | onePadding (v0 v1 v2 : Sym) : Accepted [S2C v0, S2C v1, S2C v2, PAD] (bytes2 v0 v1 v2)
  | twoPadding (v0 v1 : Sym) : Accepted [S2C v0, S2C v1, PAD, PAD] (bytes1 v0 v1)

theorem decodeText_sym_group {v0 v1 v2 v3 : Sym} {S B : List Byte} :
    decodeText (S2C v0 :: S2C v1 :: S2C v2 :: S2C v3 :: S) = .ok B ↔
      ∃ B', decodeText S = .ok B' ∧ bytes3 v0 v1 v2 v3 ++ B' = B := by
  have hlen : (S.length + 4) % 4 = S.length % 4 := Nat.add_mod_right ..
  simp [decodeText_eq_ok, firstViolation_sym_group, groupBytes, C2S_S2C, and_assoc, hlen]

/-- Three symbols and one padding character are two bytes (R191). -/
theorem decodeText_one_padding (v0 v1 v2 : Sym) :
    decodeText [S2C v0, S2C v1, S2C v2, PAD] = .ok (bytes2 v0 v1 v2) := by
  simp [decodeText_eq_ok, firstViolation, List.range_succ, violationAt, groupBytes, C2S_S2C, C2S_PAD]

theorem Accepted.decodeText_eq {S B : List Byte} (h : Accepted S B) : decodeText S = .ok B := by
  induction h with
  | nil => rfl
  | group v0 v1 v2 v3 _ ih => exact decodeText_sym_group.2 ⟨_, ih, rfl⟩
  | onePadding v0 v1 v2 => exact decodeText_one_padding v0 v1 v2
  | twoPadding v0 v1 => exact decodeText_two_padding v0 v1

/-- A group without a violation is one of the three kinds, and a padded one is the last. -/
theorem group_of_firstViolation_none {c0 c1 c2 c3 : Byte} {S : List Byte}
    (h : firstViolation (c0 :: c1 :: c2 :: c3 :: S) = none) :
    ∃ v0 v1, c0 = S2C v0 ∧ c1 = S2C v1 ∧
      ((∃ v2 v3, c2 = S2C v2 ∧ c3 = S2C v3) ∨ (S = [] ∧ c3 = PAD ∧ ((∃ v2, c2 = S2C v2) ∨ c2 = PAD))) := by
  have hat (i : Nat) (hi : i < S.length + 4) := char_of_violationAt_none (firstViolation_eq_none.1 h i hi)
  obtain ⟨v0, rfl⟩ : ∃ v, c0 = S2C v := by simpa using hat 0 (by omega)
  obtain ⟨v1, rfl⟩ : ∃ v, c1 = S2C v := by simpa [C2S_S2C] using hat 1 (by omega)
  have h2 : (∃ v, c2 = S2C v) ∨ c2 = PAD := by simpa [C2S_S2C] using hat 2 (by omega)
  have h3 : ((C2S c2).1 ≠ .pad ∧ ∃ v, c3 = S2C v) ∨ c3 = PAD := by simpa [C2S_S2C] using hat 3 (by omega)
  have hlast (hp : c3 = PAD) : S = [] := by
    cases S with
    | nil => rfl
    | cons c S => simpa [hp, C2S_PAD] using hat 4 (by simp)
  refine ⟨v0, v1, rfl, rfl, ?_⟩
  obtain ⟨hc2, v3, rfl⟩ | hc3 := h3
  · obtain ⟨v2, rfl⟩ | rfl := h2
    · exact .inl ⟨v2, v3, rfl, rfl⟩
    · exact absurd (by rw [C2S_PAD]) hc2
  · exact .inr ⟨hlast hc3, hc3, h2⟩

theorem accepted_of_decodeText {S : List Byte} : ∀ {B : List Byte}, decodeText S = .ok B → Accepted S B := by
  induction S using groupBytes.induct with
  | case1 c0 c1 c2 c3 S ih =>
    intro B h
    obtain ⟨-, hviol, -⟩ := decodeText_eq_ok.1 h
    obtain ⟨v0, v1, rfl, rfl, ⟨v2, v3, rfl, rfl⟩ | ⟨rfl, rfl, ⟨v2, rfl⟩ | rfl⟩⟩ := group_of_firstViolation_none hviol
    · obtain ⟨B', hB', rfl⟩ := decodeText_sym_group.1 h
      exact .group _ _ _ _ (ih hB')
    · obtain rfl := Except.ok.inj ((decodeText_one_padding ..).symm.trans h)
      exact .onePadding ..
    · obtain rfl := Except.ok.inj ((decodeText_two_padding ..).symm.trans h)
      exact .twoPadding ..
  | case2 S hshort =>
    intro B h
    obtain ⟨hlen, -, rfl⟩ := decodeText_eq_ok.1 h
    rcases S with _ | ⟨c0, _ | ⟨c1, _ | ⟨c2, _ | ⟨c3, S⟩⟩⟩⟩
    case nil => exact .nil
    case cons.cons.cons.cons => exact (hshort _ _ _ _ _ rfl).elim
    all_goals simp at hlen

/-- `Accepted` is acceptance by `decode`. -/
theorem decodeText_eq_ok_iff_accepted {S B : List Byte} : decodeText S = .ok B ↔ Accepted S B :=
  ⟨accepted_of_decodeText, Accepted.decodeText_eq⟩

/-! The round trip (R194) -/

/-- The bytes of a group's symbols are the group: both keep its 24 bits (R121, R151). -/
theorem bytes_of_syms (b0 b1 b2 : Byte) :
    byteFirst (symTop b0) (symSecond b0 b1) = b0 ∧ byteSecond (symSecond b0 b1) (symThird b1 b2) = b1 ∧
      byteThird (symThird b1 b2) (symLow b2) = b2 := by
  have hbits := (bytes3_bits _ _ _ _).trans (syms3_bits b0 b1 b2)
  obtain ⟨hbits, h2⟩ := bitVec_append_inj hbits
  obtain ⟨h0, h1⟩ := bitVec_append_inj hbits
  exact ⟨h0, h1, h2⟩

theorem bytes3_syms (b0 b1 b2 : Byte) :
    bytes3 (symTop b0) (symSecond b0 b1) (symThird b1 b2) (symLow b2) = [b0, b1, b2] := by
  obtain ⟨h0, h1, h2⟩ := bytes_of_syms b0 b1 b2
  rw [bytes3, h0, h1, h2]

theorem bytes2_syms (b0 b1 : Byte) : bytes2 (symTop b0) (symSecond b0 b1) (symThird b1 0) = [b0, b1] := by
  obtain ⟨h0, h1, -⟩ := bytes_of_syms b0 b1 0
  rw [bytes2, h0, h1]

theorem bytes1_syms (b0 : Byte) : bytes1 (symTop b0) (symSecond b0 0) = [b0] := by
  obtain ⟨h0, -⟩ := bytes_of_syms b0 0 0
  rw [bytes1, h0]

theorem accepted_charsFull_append (b0 b1 b2 : Byte) {S B : List Byte} (h : Accepted S B) :
    Accepted (charsFull b0 b1 b2 ++ S) (b0 :: b1 :: b2 :: B) := by
  simpa [charsFull, syms3, bytes3_syms] using Accepted.group (symTop b0) (symSecond b0 b1) (symThird b1 b2) (symLow b2) h

theorem accepted_charsTail2 (b0 b1 : Byte) : Accepted (charsTail2 b0 b1) [b0, b1] := by
  simpa only [charsTail2, tail2_eq, bytes2_syms] using Accepted.onePadding (symTop b0) (symSecond b0 b1) (symThird b1 0)

theorem accepted_charsTail1 (b0 : Byte) : Accepted (charsTail1 b0) [b0] := by
  simpa only [charsTail1, tail1_eq, bytes1_syms] using Accepted.twoPadding (symTop b0) (symSecond b0 0)

theorem accepted_encodeBytes (B : List Byte) : Accepted (encodeBytes B) B := by
  induction B using encodeBytes.induct with
  | case1 => exact .nil
  | case2 b0 => exact accepted_charsTail1 b0
  | case3 b0 b1 => exact accepted_charsTail2 b0 b1
  | case4 b0 b1 b2 B ih => exact accepted_charsFull_append b0 b1 b2 ih

theorem decodeText_encodeBytes (B : List Byte) : decodeText (encodeBytes B) = .ok B :=
  decodeText_eq_ok_iff_accepted.2 (accepted_encodeBytes B)

/-- Settles O53, by induction on the groups of `B` (`accepted_encodeBytes`). "QR==" is accepted as "QQ==" is, which is what
`encode` gives. -/
theorem roundTrip : Obligations.RoundTrip :=
  ⟨decodeText_encodeBytes, [0x51, 0x52, PAD, PAD], [0x41], by decide⟩

/-! Lengths, padding and alphabet (R195 to R198, R200) -/

/-- What `decode` accepts has at most two padding characters, and each stands for a byte less (42_decoder.md R160). -/
theorem Accepted.shape {S B : List Byte} (h : Accepted S B) :
    ∃ X k, S = X ++ List.replicate k PAD ∧ k ≤ 2 ∧ (∀ c ∈ X, inAlphabet c) ∧
      S.length % 4 = 0 ∧ B.length + k = 3 * (S.length / 4) := by
  induction h with
  | nil => exact ⟨[], 0, by simp⟩
  | group v0 v1 v2 v3 _ ih =>
    obtain ⟨X, k, rfl, hk, hX, hlen, hbytes⟩ := ih
    refine ⟨S2C v0 :: S2C v1 :: S2C v2 :: S2C v3 :: X, k, rfl, hk, by simpa using hX, ?_, ?_⟩
    · simp at hlen ⊢
      omega
    · simp [bytes3] at hbytes ⊢
      omega
  | onePadding v0 v1 v2 => exact ⟨[S2C v0, S2C v1, S2C v2], 1, by simp [bytes2]⟩
  | twoPadding v0 v1 => exact ⟨[S2C v0, S2C v1], 2, by simp [bytes1]⟩

/-- Settles O56: what `decode` accepts is groups (`Accepted.shape`), and it accepts every output of `encode`. -/
theorem acceptedStrings : Obligations.AcceptedStrings := by
  refine ⟨fun S B h => (decodeText_eq_ok_iff_accepted.1 h).shape, fun B => ?_⟩
  obtain ⟨X, k, hS, hk, hX, hlen, -⟩ := (accepted_encodeBytes B).shape
  exact ⟨X, k, hS, hk, hX, hlen⟩

/-- The padding character is no alphabet character, so only the padding is counted. -/
theorem count_PAD_append_replicate {X : List Byte} (hX : ∀ c ∈ X, inAlphabet c) (k : Nat) :
    (X ++ List.replicate k PAD).count PAD = k := by
  have hnot : PAD ∉ X := fun h => by
    obtain ⟨v, hv⟩ := hX _ h
    exact S2C_ne_PAD v hv
  rw [List.count_append, List.count_eq_zero.2 hnot, List.count_replicate_self, Nat.zero_add]

/-- Settles O54: `decode` gives `B` back from `encode(B)`, and the bytes it gives fix the length and the padding of what it
accepts (`Accepted.shape`). -/
theorem encodeLengthAndPadding : Obligations.EncodeLengthAndPadding := by
  intro B
  obtain ⟨X, k, hS, hk, hX, hlen, hbytes⟩ := (accepted_encodeBytes B).shape
  obtain rfl : k = (3 - B.length % 3) % 3 := by omega
  have hlenX : (encodeBytes B).length = X.length + (3 - B.length % 3) % 3 := by simp [hS]
  refine ⟨by omega, ?_, X, hS, hX, by omega, ?_⟩
  · rw [← List.length_eq_zero_iff]
    omega
  · rw [hS]
    exact count_PAD_append_replicate hX _

/-- Step 2 finds only faults of the alphabet and of the padding structure (R191). -/
theorem violationAt_ne_malformedLength (S : List Byte) (i : Nat) : violationAt S i ≠ some .malformedLength := by
  unfold violationAt
  cases (C2S (S.getD i 0)).1 with
  | inv => simp
  | sym => dsimp only; split_ifs <;> simp
  | pad => dsimp only; split_ifs <;> simp

theorem violationAt_of_firstViolation {S : List Byte} {i : Nat} {k : Code} (h : firstViolation S = some (i, k)) :
    violationAt S i = some k := by
  obtain ⟨j, -, hj⟩ := List.exists_of_findSome?_eq_some h
  obtain ⟨k', hk', heq⟩ := Option.map_eq_some_iff.1 hj
  obtain ⟨rfl, rfl⟩ := Prod.mk.inj heq
  exact hk'

theorem decodeText_eq_malformedLength (S : List Byte) :
    decodeText S = .error .malformedLength ↔ S.length % 4 ≠ 0 := by
  unfold decodeText
  split_ifs with hlen
  · simp [hlen]
  · cases hv : firstViolation S with
    | none => simpa using hlen
    | some m =>
      have hne : m.2 ≠ .malformedLength := fun hm =>
        violationAt_ne_malformedLength S m.1 (hm ▸ violationAt_of_firstViolation hv)
      simpa [hne] using hlen

/-- Settles O55: step 1 alone reports the length, and `decode` succeeds only past it (R191). -/
theorem malformedLengthExactly : Obligations.MalformedLengthExactly := by
  intro S
  refine ⟨decodeText_eq_malformedLength S, fun h1 B hB => ?_⟩
  obtain ⟨hlen, -⟩ := decodeText_eq_ok.1 hB
  omega

end Sys2Proof.Machine
end

section
/-! The statements of 60_exceptions.md: the causes of the three decode errors (R222, R223, R225), the latch (R224), and a unit
to which no command fires (R238). -/

namespace Sys2Proof.Machine

/-! What a decoder command leaves and shows, by the character step -/

section Answers

variable {c : Byte} {s t : State}

theorem dec_of_exec_decPush (h : exec (.decPush c) s = .next t) :
    t.dec = (s.dec.char c).1 ∧ t.pins.decRspValid = !(s.dec.char c).2.isEmpty := by
  rw [exec_decPush] at h
  cases h
  exact ⟨rfl, DecRecord.nonnull_not_last ..⟩

theorem shownDec_of_exec_decPushl (h : exec (.decPushl c) s = .next t) :
    shownDec t = ⟨(s.dec.char c).2, true, (s.dec.char c).1.endStatus⟩ := by
  rw [exec_decPushl] at h
  cases h
  exact shownDec_respondDec _ (s.dec.wellFormed_char_end c)

theorem shownDec_of_exec_decEnd (h : exec .decEnd s = .next t) : shownDec t = ⟨[], true, s.dec.endStatus⟩ := by
  rw [exec_decEnd] at h
  cases h
  exact shownDec_respondDec _ (by simp [DecRecord.wellFormed])

end Answers

/-! The error the character step leaves -/

@[simp] theorem DecRegs.completeGroup_err (d : DecRegs) (padded : Bool) : (d.completeGroup padded).err = d.err := by
  cases padded <;> rfl

@[simp] theorem DecRegs.acceptSym_err (d : DecRegs) (v : Sym) : (d.acceptSym v).1.err = d.err := by
  unfold DecRegs.acceptSym
  split_ifs <;> simp

@[simp] theorem DecRegs.acceptPad_err (d : DecRegs) : d.acceptPad.1.err = d.err := by
  unfold DecRegs.acceptPad
  split_ifs <;> simp

/-- The tests of arms (c) and (e) of the character step are the four events of R223. -/
theorem paddingFault_iff (d : DecRegs) (k : CharClass) :
    PaddingFault d k ↔ (k = .sym ∧ d.afterPadding = true) ∨ (k = .pad ∧ d.padMisplaced = true) := by
  cases k <;> simp [PaddingFault, DecRegs.afterPadding, DecRegs.padMisplaced, BitVec.ult, or_comm]

section CharError

variable {d : DecRegs} {c : Byte}

/-- While no error is latched, a character is outside the alphabet, or at fault by its place, or accepted; the first two latch
their error and emit nothing (60_exceptions.md R222, R223). -/
theorem DecRegs.char_cases_of_no_err (he : d.err = .ok) :
    ((C2S c).1 = .inv ∧ d.char c = (d.advance.raise .invalidSymbol, [])) ∨
    (PaddingFault d (C2S c).1 ∧ d.char c = (d.advance.raise .malformedPadding, [])) ∨
    ((C2S c).1 ≠ .inv ∧ ¬ PaddingFault d (C2S c).1 ∧ (d.char c).1.err = .ok) := by
  rw [paddingFault_iff]
  rcases d.char_cases c with ⟨hne, -⟩ | ⟨-, hk, h⟩ | ⟨-, hk, hp, h⟩ | ⟨-, hk, hp, h⟩ | ⟨-, hk, hp, h⟩ | ⟨-, hk, hp, h⟩
  · exact absurd he hne
  · exact .inl ⟨hk, h⟩
  · exact .inr (.inl ⟨.inl ⟨hk, hp⟩, h⟩)
  · exact .inr (.inr (by simp [hk, hp, h, he]))
  · exact .inr (.inl ⟨.inr ⟨hk, hp⟩, h⟩)
  · exact .inr (.inr (by simp [hk, hp, h, he]))

theorem DecRegs.char_err_eq_invalidSymbol_iff (he : d.err = .ok) :
    (d.char c).1.err = .invalidSymbol ↔ (C2S c).1 = .inv := by
  rcases d.char_cases_of_no_err (c := c) he with ⟨hk, h⟩ | ⟨hf, h⟩ | ⟨hk, -, h⟩
  · simp [hk, h]
  · have hk : (C2S c).1 ≠ .inv := fun hk => by simp [hk, PaddingFault] at hf
    simp [hk, h]
  · simp [hk, h]

theorem DecRegs.char_err_eq_malformedPadding_iff (he : d.err = .ok) :
    (d.char c).1.err = .malformedPadding ↔ PaddingFault d (C2S c).1 := by
  rcases d.char_cases_of_no_err (c := c) he with ⟨hk, h⟩ | ⟨hf, h⟩ | ⟨-, hf, h⟩
  · simp [hk, h, PaddingFault]
  · simp only [h, hf, DecRegs.raise_err]
  · simp only [h, hf, reduceCtorEq]

theorem DecRegs.char_err_ne_malformedLength (hd : d.err ≠ .malformedLength) : (d.char c).1.err ≠ .malformedLength := by
  by_cases he : d.err = .ok
  · rcases d.char_cases_of_no_err (c := c) he with ⟨-, h⟩ | ⟨-, h⟩ | ⟨-, -, h⟩ <;> simp [h]
  · simpa [DecRegs.char_of_err he] using hd

/-- A character step that leaves an error counts the character and emits nothing; it writes the error only where none was
latched (60_exceptions.md R224). -/
theorem DecRegs.char_of_err_after (h : (d.char c).1.err ≠ .ok) :
    d.char c = ({ d with pos := d.pos + 1, err := (d.char c).1.err }, []) := by
  by_cases he : d.err = .ok
  · rcases d.char_cases_of_no_err (c := c) he with ⟨-, hc⟩ | ⟨-, hc⟩ | ⟨-, -, hok⟩
    · rw [hc]; rfl
    · rw [hc]; rfl
    · exact absurd hok h
  · rw [DecRegs.char_of_err he]; rfl

/-- At the last place of a group the length is right, so the status is what the character step leaves. -/
theorem DecRegs.endStatus_char_at_three (hp : d.pos = 3) : (d.char c).1.endStatus = (d.char c).1.err := by
  simp [DecRegs.endStatus, hp]

theorem DecRegs.endStatus_eq_malformedLength_iff (hd : d.err ≠ .malformedLength) :
    d.endStatus = .malformedLength ↔ d.pos ≠ 0 := by
  by_cases hp : d.pos = 0 <;> simp [DecRegs.endStatus, hp, hd]

end CharError

/-- Outside the alphabet: neither padding nor an entry of the forward ROM (40_alphabet_lut.md R105). -/
theorem C2S_inv_iff (c : Byte) : (C2S c).1 = .inv ↔ c ≠ PAD ∧ ¬ inAlphabet c := by
  constructor
  · refine fun h => ⟨?_, ?_⟩
    · rintro rfl
      simp [C2S_PAD] at h
    · rintro ⟨v, rfl⟩
      simp [C2S_S2C] at h
  · rintro ⟨hpad, hsym⟩
    cases hk : (C2S c).1 with
    | inv => rfl
    | sym => exact absurd ⟨_, S2C_C2S_of_sym hk⟩ hsym
    | pad => exact absurd (eq_PAD_of_pad hk) hpad

/-- Settles O29: the error the character step leaves is what `DEC.PUSH` latches and, at the last place of a group, what
`DEC.PUSHL` reports. -/
theorem invalidSymbolCause : Obligations.InvalidSymbolCause := by
  refine fun c s t he => ⟨fun h => ?_, fun h hp => ?_, C2S_inv_iff c⟩
  · rw [(dec_of_exec_decPush h).1]
    exact DecRegs.char_err_eq_invalidSymbol_iff he
  · rw [shownDec_of_exec_decPushl h, DecRegs.endStatus_char_at_three hp]
    exact DecRegs.char_err_eq_invalidSymbol_iff he

/-- Settles O30, as O29: the four events are the tests of arms (c) and (e) (`paddingFault_iff`). -/
theorem malformedPaddingCauses : Obligations.MalformedPaddingCauses := by
  refine fun c s t he => ⟨fun h => ?_, fun h hp => ?_⟩
  · rw [(dec_of_exec_decPush h).1]
    exact DecRegs.char_err_eq_malformedPadding_iff he
  · rw [shownDec_of_exec_decPushl h, DecRegs.endStatus_char_at_three hp]
    exact DecRegs.char_err_eq_malformedPadding_iff he

/-- Settles O31: the end step alone reports the length, by the position, which the character step has advanced. -/
theorem malformedLengthCause : Obligations.MalformedLengthCause := by
  refine fun c s t hs => ⟨fun h => ?_, fun h => ?_, fun h => ?_⟩
  · rw [shownDec_of_exec_decEnd h]
    exact DecRegs.endStatus_eq_malformedLength_iff hs
  · rw [shownDec_of_exec_decPushl h, ← DecRegs.char_pos s.dec c]
    exact DecRegs.endStatus_eq_malformedLength_iff (DecRegs.char_err_ne_malformedLength hs)
  · rw [(dec_of_exec_decPush h).1]
    exact DecRegs.char_err_ne_malformedLength hs

/-- Settles O32: a step that leaves an error is one of raising or of counting only (`DecRegs.char_of_err_after`,
`DecRegs.char_of_err`), and a `DEC.PUSHL` that emits bytes ends well. -/
theorem latchIsPreciseAndFirstErrorWins : Obligations.LatchIsPreciseAndFirstErrorWins := by
  refine fun c s t => ⟨fun h hne => ?_, fun h he => ?_, fun h hbad => ?_, fun h => ?_⟩
  · obtain ⟨hdec, hvalid⟩ := dec_of_exec_decPush h
    rw [hdec] at hne
    have hchar := DecRegs.char_of_err_after hne
    rw [hvalid, hdec]
    refine ⟨congrArg Prod.fst hchar, by rw [hchar]; rfl, fun he => ?_⟩
    rw [DecRegs.char_of_err he, DecRegs.advance_err]
  · obtain ⟨hdec, hvalid⟩ := dec_of_exec_decPush h
    rw [hvalid, hdec, DecRegs.char_of_err he]
    exact ⟨rfl, rfl⟩
  · rw [shownDec_of_exec_decPushl h] at hbad ⊢
    by_contra hout
    rcases hbad with he | hst
    · exact hout (by rw [DecRegs.char_of_err he])
    · exact hst (DecRegs.endStatus_of_char_out hout)
  · rw [exec_decNop] at h
    cases h
    rfl

/-! A unit to which no command fires (R238) -/

theorem Cycle.encFires_eq_none {c : Cycle} (h : c.encCmdValid = false ∨ c.encRspReady = false) : c.encFires = none := by
  rcases h with h | h <;> simp [Cycle.encFires, Cycle.encPresented, h]

theorem Cycle.decFires_eq_none {c : Cycle} (h : c.decCmdValid = false ∨ c.decRspReady = false) : c.decFires = none := by
  rcases h with h | h <;> simp [Cycle.decFires, Cycle.decPresented, h]

/-- A cycle without reset in which no encoder command fires writes no encoder register (30_encoding.md R75). -/
theorem EncCycle.enc_eq_of_no_fire {c : Cycle} {s t : State} (h : EncCycle c s t) (hr : c.rst = false)
    (hf : c.encFires = none) : t.enc = s.enc := by
  obtain ⟨-, h⟩ := h
  cases hp : c.encPresented with
  | none =>
    simp only [hp, hr, State.resetEdge_false] at h
    exact h.1
  | some i =>
    have hready : c.encRspReady = false := by simpa [Cycle.encFires, hp] using hf
    simp only [hp, hready] at h
    obtain ⟨e, r, -, -, henc, -⟩ := h
    exact henc

/-- A cycle without reset in which no decoder command fires writes no decoder register (30_encoding.md R75). -/
theorem DecCycle.dec_eq_of_no_fire {c : Cycle} {s t : State} (h : DecCycle c s t) (hr : c.rst = false)
    (hf : c.decFires = none) : t.dec = s.dec := by
  obtain ⟨-, h⟩ := h
  cases hp : c.decPresented with
  | none =>
    simp only [hp, hr, State.resetEdge_false] at h
    exact h.1
  | some i =>
    have hready : c.decRspReady = false := by simpa [Cycle.decFires, hp] using hf
    simp only [hp, hready] at h
    obtain ⟨d, q, -, -, hdec, -⟩ := h
    exact hdec

@[simp] theorem State.takeCycle_enc (s : State) : s.takeCycle.2.enc = s.enc := by
  unfold State.takeCycle
  split <;> rfl

@[simp] theorem State.takeCycle_dec (s : State) : s.takeCycle.2.dec = s.dec := by
  unfold State.takeCycle
  split <;> rfl

/-- What holds of every input to come and of an idle cycle holds of the next cycle's inputs and of those after them. -/
theorem State.takeCycle_forall {P : Cycle → Prop} (hidle : P Cycle.idle) {s : State} (h : ∀ c ∈ s.pending, P c) :
    P s.takeCycle.1 ∧ ∀ c ∈ s.takeCycle.2.pending, P c := by
  unfold State.takeCycle
  split
  next hp => exact ⟨hidle, h⟩
  next c cs hp => simpa [hp] using h

theorem runCycles_succ {n : Nat} {s : State} {ts : List State} (h : runCycles (n + 1) s = some ts) :
    ∃ t us, clock s.takeCycle.1 s.takeCycle.2 = .next t ∧ runCycles n t = some us ∧ ts = t :: us := by
  unfold runCycles at h
  cases hs : step s with
  | next t =>
    rw [hs] at h
    obtain ⟨us, hus, rfl⟩ := Option.map_eq_some_iff.1 h
    exact ⟨t, us, hs, hus, rfl⟩
  | fault r => cases r
  | refused r => rw [hs] at h; cases h

/-- What every cycle with inputs of a kind leaves alone, a run of such cycles leaves alone; the idle cycles past the inputs
are of the kind. -/
theorem runCycles_keeps {α : Type} {f : State → α} {P : Cycle → Prop} (hidle : P Cycle.idle)
    (htake : ∀ s : State, f s.takeCycle.2 = f s)
    (hclock : ∀ {c : Cycle} {s t : State}, P c → clock c s = .next t → f t = f s)
    {n : Nat} {s : State} {ts : List State} (h : runCycles n s = some ts) (hP : ∀ c ∈ s.pending, P c) :
    ∀ t ∈ ts, f t = f s := by
  induction n generalizing s ts with
  | zero => cases h; simp
  | succ n ih =>
    obtain ⟨t, us, ht, hus, rfl⟩ := runCycles_succ h
    obtain ⟨hc, hrest⟩ := State.takeCycle_forall hidle hP
    have hft : f t = f s := (hclock hc ht).trans (htake s)
    have hpend : t.pending = s.takeCycle.2.pending := (clock_next ht).1
    have hfus := ih hus (hpend ▸ hrest)
    simpa [hft] using hfus

/-- Settles O46, by induction on the cycles (`runCycles_keeps`): one cycle in which nothing fires writes no register. -/
theorem unitsHoldWhileNothingFires : Obligations.UnitsHoldWhileNothingFires := by
  refine fun n s ts h hrst => ⟨fun henc => ?_, fun hdec => ?_⟩
  · refine runCycles_keeps (P := fun c => c.rst = false ∧ c.encFires = none) ⟨rfl, rfl⟩ State.takeCycle_enc
      (fun hc hclock => ?_) h fun c hc => ⟨hrst c hc, Cycle.encFires_eq_none (henc c hc)⟩
    obtain ⟨-, hcycle, -⟩ := clock_next hclock
    exact hcycle.enc_eq_of_no_fire hc.1 hc.2
  · refine runCycles_keeps (P := fun c => c.rst = false ∧ c.decFires = none) ⟨rfl, rfl⟩ State.takeCycle_dec
      (fun hc hclock => ?_) h fun c hc => ⟨hrst c hc, Cycle.decFires_eq_none (hdec c hc)⟩
    obtain ⟨-, -, hcycle⟩ := clock_next hclock
    exact hcycle.dec_eq_of_no_fire hc.1 hc.2

end Sys2Proof.Machine
end

section
/-! The statements of 70_reset_and_hazards.md: the reset edge (R260) and where a message is cut (R276). -/

namespace Sys2Proof.Machine

/-! The reset edge -/

/-- With `rst = 1` the encoder accepts no command (70_reset_and_hazards.md R260). -/
theorem Cycle.encPresented_of_rst {c : Cycle} (h : c.rst = true) : c.encPresented = none := by
  simp [Cycle.encPresented, h]

/-- With `rst = 1` the decoder accepts no command (70_reset_and_hazards.md R260). -/
theorem Cycle.decPresented_of_rst {c : Cycle} (h : c.rst = true) : c.decPresented = none := by
  simp [Cycle.decPresented, h]

/-- A reset edge presents no command that could be refused, so it completes even with `enc.cnt = 3`, where `clock_total` says
nothing. -/
theorem clock_total_of_rst {c : Cycle} (h : c.rst = true) (s : State) : ∃ t, clock c s = .next t := by
  unfold clock
  rw [Cycle.encPresented_of_rst h, present_none, andThen_next, Cycle.decPresented_of_rst h, present_none, andThen_next,
    clock_tail]
  exact ⟨_, rfl⟩

/-- What a reset edge leaves of the encoder: reset registers and a silent port. -/
theorem EncCycle.of_rst {c : Cycle} {s t : State} (h : EncCycle c s t) (hr : c.rst = true) :
    t.enc = EncRegs.reset ∧ t.pins.encCmdReady = false ∧ t.pins.encRspValid = false ∧ t.pins.encRsp = 0 := by
  simpa [EncCycle, Cycle.encPresented_of_rst hr, hr, and_left_comm] using h

/-- What a reset edge leaves of the decoder: reset registers and a silent port. -/
theorem DecCycle.of_rst {c : Cycle} {s t : State} (h : DecCycle c s t) (hr : c.rst = true) :
    t.dec = DecRegs.reset ∧ t.pins.decCmdReady = false ∧ t.pins.decRspValid = false ∧ t.pins.decRsp = 0 := by
  simpa [DecCycle, Cycle.decPresented_of_rst hr, hr, and_left_comm] using h

/-- Without reset both units are ready for a command exactly where the host takes their response (30_encoding.md R75). -/
theorem cmdReady_of_clock {c : Cycle} {s t : State} (hr : c.rst = false) (h : clock c s = .next t) :
    t.pins.encCmdReady = c.encRspReady ∧ t.pins.decCmdReady = c.decRspReady := by
  obtain ⟨-, ⟨henc, -⟩, ⟨hdec, -⟩⟩ := clock_next h
  simpa [hr] using And.intro henc hdec

/-- Settles O45: a reset edge presents nothing, so it completes from any registers (`clock_total_of_rst`), and each unit's part of
the cycle is the reset alone. -/
theorem resetEdgeClearsBothUnits : Obligations.ResetEdgeClearsBothUnits := by
  intro c cs s hr
  obtain ⟨t, ht⟩ := clock_total_of_rst hr { s with pending := cs }
  obtain ⟨hpending, hencCycle, hdecCycle⟩ := clock_next ht
  obtain ⟨henc, hencReady, hencValid, hencRsp⟩ := hencCycle.of_rst hr
  obtain ⟨hdec, hdecReady, hdecValid, hdecRsp⟩ := hdecCycle.of_rst hr
  exact ⟨t, ht, henc, hdec, hpending, hencReady, hdecReady, hencValid, hdecValid, hencRsp, hdecRsp,
    fun _ _ => cmdReady_of_clock⟩

/-! Where a message is cut -/

/-- What an event adds to a message: its item, if it carries one. -/
def Event.items {R : Type} : Event R → List R
  | .item r => [r]
  | .quiet => []
  | .reset => []

section Cut
variable {R : Type} {last : R → Bool} {es : List (Event R)}

/-- The outputs of the items of a run are the outputs of its events. The function on events is given by what it does to each
kind of event, so that it may be any such function written in a statement. -/
theorem flatMap_items {α : Type} {out : R → List α} {eventOut : Event R → List α} (hquiet : eventOut .quiet = [])
    (hreset : eventOut .reset = []) (hitem : ∀ r, eventOut (.item r) = out r) :
    (es.flatMap Event.items).flatMap out = es.flatMap eventOut := by
  rw [List.flatMap_assoc]
  congr 1
  funext e
  cases e <;> simp [Event.items, hquiet, hreset, hitem]

/-- Events without a last item and without a reset end no message and leave all their items unfinished. -/
theorem endedFrom_openAfter_of_uncut (h : ∀ e ∈ es, e = .quiet ∨ ∃ q, e = .item q ∧ last q = false) (acc : List R) :
    endedFrom last acc es = [] ∧ openAfter last acc es = acc ++ es.flatMap Event.items := by
  induction es generalizing acc with
  | nil => simp [openAfter]
  | cons e es ih =>
    obtain ⟨he, hes⟩ := List.forall_mem_cons.1 h
    rcases he with rfl | ⟨q, rfl, hq⟩
    · simpa [openAfter, Event.items] using ih hes acc
    · simpa [openAfter, endedFrom_item, Event.items, hq] using ih hes (acc ++ [q])

theorem openAfter_append (fs : List (Event R)) (acc : List R) :
    openAfter last acc (es ++ fs) = openAfter last (openAfter last acc es) fs := by
  induction es generalizing acc with
  | nil => rfl
  | cons e es ih =>
    cases e with
    | quiet | reset => exact ih _
    | item r => cases h : last r <;> simp [openAfter, h, ih]

/-- After nothing, after a reset and after a last item no message is unfinished. -/
theorem openAfter_of_cut
    (h : es = [] ∨ es.getLast? = some .reset ∨ ∃ q, es.getLast? = some (.item q) ∧ last q = true) :
    openAfter last [] es = [] := by
  rcases h with rfl | h | ⟨q, h, hq⟩
  · rfl
  · obtain ⟨init, rfl⟩ := List.getLast?_eq_some_iff.1 h
    simp [openAfter_append, openAfter]
  · obtain ⟨init, rfl⟩ := List.getLast?_eq_some_iff.1 h
    simp [openAfter_append, openAfter, hq]

/-- In a run that reaches a cut with `pre` and then, with `mid`, neither ends a message nor is reset, `mid` adds no message,
whether or not a reset follows, and a last item after it ends the one message of the items of `mid` and itself. -/
theorem endedFrom_between_cuts {pre mid : List (Event R)}
    (hmid : ∀ e ∈ mid, e = .quiet ∨ ∃ q, e = .item q ∧ last q = false)
    (hpre : pre = [] ∨ pre.getLast? = some .reset ∨ ∃ q, pre.getLast? = some (.item q) ∧ last q = true)
    (post : List (Event R)) {r : R} (hr : last r = true) :
    endedFrom last [] mid = [] ∧ endedFrom last [] (pre ++ mid) = endedFrom last [] pre ∧
    endedFrom last [] (pre ++ mid ++ .reset :: post) = endedFrom last [] pre ++ endedFrom last [] post ∧
    endedFrom last [] (pre ++ mid ++ .item r :: post) =
      endedFrom last [] pre ++ [(mid.flatMap Event.items, r)] ++ endedFrom last [] post := by
  obtain ⟨hended, hopen⟩ := endedFrom_openAfter_of_uncut hmid []
  have hcut := openAfter_of_cut hpre
  refine ⟨hended, ?_, ?_, ?_⟩
  · simp [endedFrom_append, hcut, hended]
  · simp [endedFrom_append, hcut, hended]
  · simp [endedFrom_append, endedFrom_item, hcut, hended, hopen, hr]

/-- The messages that end in a run, each as `mk` of its output and its last item: what both units' messages are
(`encMessages_eq`, `decMessages_eq`). -/
def endedMessages {α M : Type} (last : R → Bool) (out : R → List α) (mk : List α → R → M) (es : List (Event R)) : List M :=
  (endedFrom last [] es).map fun m => mk ((m.1 ++ [m.2]).flatMap out) m.2

/-- `endedFrom_between_cuts` for the messages' outputs, which the function on events concatenates. -/
theorem endedMessages_between_cuts {α M : Type} {out : R → List α} {mk : List α → R → M} {pre mid post : List (Event R)}
    {r : R} {eventOut : Event R → List α} (hr : last r = true)
    (hmid : ∀ e ∈ mid, e = .quiet ∨ ∃ q, e = .item q ∧ last q = false)
    (hpre : pre = [] ∨ pre.getLast? = some .reset ∨ ∃ q, pre.getLast? = some (.item q) ∧ last q = true)
    (hquiet : eventOut .quiet = []) (hreset : eventOut .reset = []) (hitem : ∀ q, eventOut (.item q) = out q) :
    endedMessages last out mk mid = [] ∧ endedMessages last out mk (pre ++ mid) = endedMessages last out mk pre ∧
    endedMessages last out mk (pre ++ mid ++ .reset :: post) =
      endedMessages last out mk pre ++ endedMessages last out mk post ∧
    endedMessages last out mk (pre ++ mid ++ .item r :: post) =
      endedMessages last out mk pre ++ [mk (mid.flatMap eventOut ++ out r) r] ++ endedMessages last out mk post := by
  obtain ⟨hended, hopen, hcut, hmessage⟩ := endedFrom_between_cuts hmid hpre post hr
  have hout := flatMap_items (es := mid) hquiet hreset hitem
  unfold endedMessages
  refine ⟨by rw [hended, List.map_nil], by rw [hopen], by rw [hcut, List.map_append], ?_⟩
  rw [hmessage, List.map_append, List.map_append, List.map_singleton, List.flatMap_append, hout, List.flatMap_singleton]

end Cut

theorem encMessages_eq (es : List (Event EncRecord)) :
    encMessages es = endedMessages EncRecord.last EncRecord.chars (fun output _ => output) es := rfl

theorem decMessages_eq (es : List (Event DecRecord)) :
    decMessages es =
      endedMessages DecRecord.last DecRecord.bytes (fun output r => { output := output, verdict := r.status }) es := rfl

/-- Settles O59: the messages of both units are cut in the same way (`endedMessages_between_cuts`). -/
theorem messagesAreCutAtLastAndReset : Obligations.MessagesAreCutAtLastAndReset := by
  refine ⟨fun pre mid post r hr hmid hpre => ?_, fun pre mid post r hr hmid hpre => ?_⟩
  · simp only [encMessages_eq]
    exact endedMessages_between_cuts hr hmid hpre rfl rfl fun _ => rfl
  · simp only [decMessages_eq]
    exact endedMessages_between_cuts hr hmid hpre rfl rfl fun _ => rfl

end Sys2Proof.Machine
end

section
/-! The rest of 30_encoding.md: the encoder of command words and their decoder are inverse (R71 to R73, R80, R84, R85). -/

namespace Sys2Proof.Machine

@[simp] theorem cmdLast_encodeCmd (l h : Bool) (b : Byte) : cmdLast (encodeCmd l h b) = l := by
  rw [cmdLast, encodeCmd, ← BitVec.getLsbD_eq_getElem, BitVec.getLsbD_append, BitVec.getLsbD_append]
  simp

@[simp] theorem cmdHasData_encodeCmd (l h : Bool) (b : Byte) : cmdHasData (encodeCmd l h b) = h := by
  rw [cmdHasData, encodeCmd, ← BitVec.getLsbD_eq_getElem, BitVec.getLsbD_append, BitVec.getLsbD_append]
  simp

@[simp] theorem cmdData_encodeCmd (l h : Bool) (b : Byte) : cmdData (encodeCmd l h b) = b :=
  BitVec.extractLsb'_append_eq_right

/-- A command word is its three fields (30_encoding.md R71). -/
theorem encodeCmd_fields (w : CmdWord) : encodeCmd (cmdLast w) (cmdHasData w) (cmdData w) = w := by
  refine BitVec.eq_of_getLsbD_eq fun i hi => ?_
  simp only [encodeCmd, cmdLast, cmdHasData, cmdData, BitVec.getLsbD_append]
  interval_cases i <;> simp

theorem decodeWord_romSym (v : Sym) : decodeWord ⟨.romSym, v.toNat⟩ = .ok (.lutS2c v) := by
  simp [decodeWord, (show (PortWord.mk .romSym v.toNat).wellFormed = true from decide_eq_true v.isLt)]

theorem decodeWord_romChr (c : Byte) : decodeWord ⟨.romChr, c.toNat⟩ = .ok (.lutC2s c) := by
  simp [decodeWord, (show (PortWord.mk .romChr c.toNat).wellFormed = true from decide_eq_true c.isLt)]

/-- Settles O2, by the port: a command word gives back the fields it was made of, and a ROM address is the word itself. -/
theorem decodeOfEncodeIsIdentity : Obligations.DecodeOfEncodeIsIdentity := by
  intro i _
  cases i with
  | encNop | encPush b | encFlush | encPushl b => exact ⟨rfl, by simp [encode, decodeWord_encCmd, decodeEnc]⟩
  | decNop | decPush c | decEnd | decPushl c => exact ⟨rfl, by simp [encode, decodeWord_decCmd, decodeDec]⟩
  | lutS2c v => exact ⟨rfl, decodeWord_romSym v⟩
  | lutC2s c => exact ⟨rfl, decodeWord_romChr c⟩

/-- Settles O1: the ten words of the spec, read by the decoder. -/
theorem writtenWordsDecode : Obligations.WrittenWordsDecode := by
  unfold Obligations.WrittenWordsDecode
  decide

/-- Settles O3: a word with data is its fields (`encodeCmd_fields`), and one without is encoded with its data cleared, as the
mask does (`and_selectMask`). -/
theorem encodeOfDecodeKeepsEveryUsedBit : Obligations.EncodeOfDecodeKeepsEveryUsedBit := by
  intro w
  have hbit : w[8] = cmdHasData w := rfl
  have hfields := encodeCmd_fields w
  rw [hbit, and_selectMask, decodeEnc, decodeDec]
  cases hl : cmdLast w <;> cases hd : cmdHasData w <;> rw [hl, hd] at hfields <;> simp [encode, hfields]

end Sys2Proof.Machine
end

section
/-! The statements of 40_alphabet_lut.md: the two ROMs in closed form (R102, R105, R106), the laws between them (R107) and the
reads of them (R103, R105). -/

namespace Sys2Proof.Machine

/-- Two symbols with one character are one, since the inverse ROM reads each back. -/
theorem S2C_inj {v v' : Sym} (h : S2C v = S2C v') : v = v' := by
  have hpair : (CharClass.sym, v) = (CharClass.sym, v') := by rw [← C2S_S2C v, h, C2S_S2C]
  exact congrArg Prod.snd hpair

theorem S2C_eq_codeOf : ∀ v : Sym, S2C v = codeOf v := by decide

theorem C2S_eq_classify : ∀ c : Byte, C2S c = classify c := by decide

/-- The values of the forward ROM, range by range (40_alphabet_lut.md R102). -/
theorem S2C_ranges : ∀ v : Sym,
    (v.toNat ≤ 25 → (S2C v).toNat = 0x41 + v.toNat) ∧
    (26 ≤ v.toNat → v.toNat ≤ 51 → (S2C v).toNat = 0x61 + (v.toNat - 26)) ∧
    (52 ≤ v.toNat → v.toNat ≤ 61 → (S2C v).toNat = 0x30 + (v.toNat - 52)) ∧
    (v.toNat = 62 → S2C v = 0x2B) ∧ (v.toNat = 63 → S2C v = 0x2F) ∧
    0x2B ≤ (S2C v).toNat ∧ (S2C v).toNat ≤ 0x7A := by decide

/-- Settles O8: the ranges over the 64 symbols, and that the entries are distinct and none is `PAD`. -/
theorem forwardRomClosedForm : Obligations.ForwardRomClosedForm := by
  intro v
  obtain ⟨hupper, hlower, hdigit, h62, h63, hmin, hmax⟩ := S2C_ranges v
  exact ⟨hupper, hlower, hdigit, h62, h63, hmin, hmax, rfl, S2C_ne_PAD v, fun _ => S2C_inj⟩

/-- Settles O9: the statement writes out `classify`. -/
theorem inverseRomClosedForm : Obligations.InverseRomClosedForm := C2S_eq_classify

/-- Settles O10: each ROM reads back what the other gives, and only `PAD` is of class `PAD`. -/
theorem alphabetLaws : Obligations.AlphabetLaws :=
  ⟨C2S_S2C, fun _ => S2C_C2S_of_sym, fun _ _ => S2C_inj, S2C_ne_PAD, C2S_PAD, fun _ => eq_PAD_of_pad⟩

/-- The byte `{cls, sym}` the inverse ROM holds for each code (40_alphabet_lut.md R106). -/
theorem memReadChr_closedForm : ∀ c : Byte, (memReadChr c).toNat =
    if 0x41 ≤ c.toNat ∧ c.toNat ≤ 0x5A then 0x40 + (c.toNat - 0x41)
    else if 0x61 ≤ c.toNat ∧ c.toNat ≤ 0x7A then 0x40 + (c.toNat - 0x61 + 26)
    else if 0x30 ≤ c.toNat ∧ c.toNat ≤ 0x39 then 0x40 + (c.toNat - 0x30 + 52)
    else if c = 0x2B then 0x40 + 62
    else if c = 0x2F then 0x40 + 63
    else if c = 0x3D then 0x80
    else 0x00 := by decide

/-- No entry has class 3, and only an entry of a symbol has symbol bits (30_encoding.md R84). -/
theorem memReadChr_fields : ∀ c : Byte, (memReadChr c).extractLsb' 6 2 ≠ 3 ∧
    ((memReadChr c).extractLsb' 6 2 ≠ 1 → (memReadChr c).extractLsb' 0 6 = 0) := by decide

theorem length_chrRom : chrRom.length = 256 := by
  simp only [chrRom, chrRomLow, List.length_append, List.length_cons, List.length_nil, List.length_replicate]

/-- The 256 reads in order are the ROM's contents. -/
theorem map_memReadChr_range : ((List.range 256).map fun n => memReadChr (BitVec.ofNat 8 n)) = chrRom := by
  refine List.ext_getElem (by simp [length_chrRom]) fun n h _ => ?_
  have hn : n < 256 := by simpa using h
  simp [memReadChr, length_chrRom, Nat.mod_eq_of_lt hn, List.getD_eq_getElem?_getD, hn]

/-- Counting over the 256 reads is counting over the rows `0_` to `7_` and the 128 zeros after them. -/
theorem countP_memReadChr (p : Byte → Bool) :
    (List.range 256).countP (fun n => p (memReadChr (BitVec.ofNat 8 n))) =
      chrRomLow.countP p + if p 0 then 128 else 0 := by
  rw [← List.countP_replicate, ← List.countP_append]
  change _ = chrRom.countP p
  rw [← map_memReadChr_range, List.countP_map]
  rfl

/-- Settles O11: the closed form and the unused class over the 256 entries; the counts over the ROM's rows. -/
theorem inverseRomEntries : Obligations.InverseRomEntries := by
  refine ⟨memReadChr_closedForm, memReadChr_fields, ?_, ?_, ?_⟩
  · exact (countP_memReadChr fun e => e.extractLsb' 6 2 == 1).trans (by decide)
  · exact (countP_memReadChr fun e => e.extractLsb' 6 2 == 2).trans (by decide)
  · exact (countP_memReadChr fun e => e.extractLsb' 6 2 == 0).trans (by decide)

/-- Settles O12: the read shows the entry, which is the symbol's code (`S2C_eq_codeOf`), and writes nothing else. -/
theorem forwardReadCompletes : Obligations.ForwardReadCompletes :=
  fun v s => ⟨_, exec_lutS2c v s, congrArg some (S2C_eq_codeOf v), rfl, rfl, rfl, rfl⟩

/-- Settles O13: the read shows the entry, whose fields are what `C2S` gives (`C2S_eq_classify`), and writes nothing else. -/
theorem inverseReadCompletes : Obligations.InverseReadCompletes :=
  fun c s => ⟨_, _, exec_lutC2s c s, rfl, C2S_eq_classify c, rfl, rfl, rfl, rfl⟩

end Sys2Proof.Machine
end

section
/-! What every instruction does to its own unit and leaves alone of the other (20_memory.md R59 point 3), where an instruction
stops (93_implementation_defined.md X1), and the two commands that merge two others (41_encoder.md R127, 42_decoder.md R157). -/

namespace Sys2Proof.Machine

/-! Completing and stopping -/

/-- The encoder commands but `ENC.NOP` have no meaning in the unreachable count. -/
theorem exec_of_cnt_three {i : Instr} {s : State} (hs : s.enc.cnt = 3) (hi : i.port = .encCmd) (hn : i ≠ .encNop) :
    exec i s = .refused .encCountUnreachable := by
  cases i with
  | encNop => exact absurd rfl hn
  | encPush b => simp [exec, execEncPush, hs]
  | encFlush => simp [exec, execEncFlush, hs]
  | encPushl b => simp [exec, execEncPushl, hs]
  | _ => cases hi

/-- A bare ROM read shows an entry and writes nothing else. -/
theorem exec_romRead_frame {i : Instr} (hi : i.port = .romSym ∨ i.port = .romChr) (s : State) :
    ∃ t, exec i s = .next t ∧ t.pending = s.pending ∧ t.enc = s.enc ∧ t.dec = s.dec := by
  cases i with
  | lutS2c v => exact ⟨_, exec_lutS2c v s, rfl, rfl, rfl⟩
  | lutC2s c => exact ⟨_, exec_lutC2s c s, rfl, rfl, rfl⟩
  | _ => simp [Instr.port] at hi

/-- Settles O19, by the port: a command writes its own unit's registers and response, a ROM read no register. -/
theorem everyInstructionCompletes : Obligations.EveryInstructionCompletes := by
  intro i s hs
  cases hp : i.port with
  | encCmd =>
    rcases exec_encCmd i hp s.enc with ⟨h3, -⟩ | ⟨e, r, -, hnext⟩
    · exact absurd h3 (hs hp)
    · exact ⟨_, hnext s rfl, rfl, fun _ => encFrame_respondEnc .., nofun, by simp⟩
  | decCmd =>
    obtain ⟨d, q, -, hnext⟩ := exec_decCmd i hp s.dec
    exact ⟨_, hnext s rfl, rfl, nofun, fun _ => decFrame_respondDec .., by simp⟩
  | romSym | romChr =>
    obtain ⟨t, ht, hpending, hregs⟩ := exec_romRead_frame (i := i) (by simp [hp]) s
    exact ⟨t, ht, hpending, nofun, nofun, fun _ => hregs⟩

/-- An instruction stops only as an encoder command other than `ENC.NOP` in the unreachable count. -/
theorem exec_eq_refused_iff {i : Instr} {s : State} {r : Refusal} :
    exec i s = .refused r ↔ r = .encCountUnreachable ∧ s.enc.cnt = 3 ∧ i.port = .encCmd ∧ i ≠ .encNop := by
  by_cases h : s.enc.cnt = 3 ∧ i.port = .encCmd ∧ i ≠ .encNop
  · obtain ⟨hs, hi, hn⟩ := h
    simp [exec_of_cnt_three hs hi hn, hs, hi, hn, eq_comm]
  · have hnext : ∃ t, exec i s = .next t := by
      by_cases hn : i = .encNop
      · exact hn ▸ ⟨_, exec_encNop s⟩
      · obtain ⟨t, ht, -⟩ := everyInstructionCompletes i s fun hi hs => h ⟨hs, hi, hn⟩
        exact ⟨t, ht⟩
    obtain ⟨t, ht⟩ := hnext
    rw [ht]
    exact ⟨nofun, fun hr => absurd hr.2 h⟩

/-- Settles O20: the cases of `exec_eq_refused_iff`. -/
theorem unreachableCountIsRefused : Obligations.UnreachableCountIsRefused :=
  fun _ _ => ⟨by simp [exec_eq_refused_iff], fun _ h => (exec_eq_refused_iff.1 h).1⟩

theorem cnt_ne_three_of_next {i : Instr} {s t : State} (hi : i.port = .encCmd) (hn : i ≠ .encNop) (h : exec i s = .next t) :
    s.enc.cnt ≠ 3 := fun hs => by
  rw [exec_of_cnt_three hs hi hn] at h
  cases h

/-- An instruction of another port leaves the encoder's registers alone. -/
theorem enc_of_exec {i : Instr} {s t : State} (hi : i.port ≠ .encCmd) (h : exec i s = .next t) : t.enc = s.enc := by
  obtain ⟨t', ht', -, -, hdec, hrom⟩ := everyInstructionCompletes i s fun hi' => absurd hi' hi
  obtain rfl : t' = t := Host.Outcome.next.inj (ht'.symm.trans h)
  cases hp : i.port with
  | encCmd => exact absurd hp hi
  | decCmd => exact (hdec hp).1
  | romSym => exact (hrom (.inl hp)).1
  | romChr => exact (hrom (.inr hp)).1

/-- An instruction of another port leaves the decoder's registers alone. -/
theorem dec_of_exec {i : Instr} {s t : State} (hi : i.port ≠ .decCmd) (h : exec i s = .next t) : t.dec = s.dec := by
  cases hp : i.port with
  | encCmd =>
    obtain ⟨e, r, rfl, -⟩ := exec_encCmd_congr hp (rfl : s.enc = s.enc) h
    rfl
  | decCmd => exact absurd hp hi
  | romSym | romChr =>
    obtain ⟨t', ht', -, -, hdec⟩ := exec_romRead_frame (i := i) (by simp [hp]) s
    obtain rfl : t' = t := Host.Outcome.next.inj (ht'.symm.trans h)
    exact hdec

/-- Settles O41: the commands with `last = 1` write the reset registers, and the rest is the frame of each port. -/
theorem endOfMessageLeavesTheResetState : Obligations.EndOfMessageLeavesTheResetState := by
  refine fun i s t h => ⟨?_, ?_, fun hi => enc_of_exec hi h, fun hi => dec_of_exec hi h⟩
  · rintro (rfl | ⟨b, rfl⟩)
    · rw [exec_encFlush (cnt_ne_three_of_next rfl (by simp) h)] at h
      cases h; rfl
    · rw [exec_encPushl b (cnt_ne_three_of_next rfl (by simp) h)] at h
      cases h; rfl
  · rintro (rfl | ⟨c, rfl⟩)
    · rw [exec_decEnd] at h
      cases h; rfl
    · rw [exec_decPushl] at h
      cases h; rfl

/-- Settles O47: each command's effect is fixed by its own unit's registers, which the other leaves alone, and the two write
different fields. -/
theorem unitsCommute : Obligations.UnitsCommute := by
  intro i j s hi hj
  obtain ⟨d, q, -, hdec⟩ := exec_decCmd j hj s.dec
  rcases exec_encCmd i hi s.enc with ⟨-, hstop⟩ | ⟨e, r, -, henc⟩
  · rw [hstop s rfl, hdec s rfl]
    exact (hstop ((s.setDec d).respondDec q) rfl).symm
  · rw [henc s rfl, hdec s rfl]
    exact (hdec ((s.setEnc e).respondEnc r) rfl).trans (henc ((s.setDec d).respondDec q) rfl).symm

/-! The merged commands -/

/-- The ports show the record responded with, as `shownDec_respondDec` says of the decoder. -/
theorem shownEnc_respondEnc (s : State) {r : EncRecord} (hr : r.wellFormed = true) : shownEnc (s.respondEnc r) = r := by
  cases hn : r.nonnull with
  | true => simp [shownEnc, hn, unpackErsp_pack r hr]
  | false =>
    obtain ⟨chars, last⟩ := r
    obtain ⟨rfl, rfl⟩ : chars = [] ∧ last = false := by simpa [EncRecord.nonnull] using hn
    simp [shownEnc]

/-- At most one group of bytes is encoded in no character or in four. -/
theorem wellFormed_encodeBytes {B : List Byte} (hB : B.length ≤ 3) (l : Bool) :
    (EncRecord.mk (encodeBytes B) l).wellFormed = true := by
  have hlen := (encodeLengthAndPadding B).1
  have hcases : (encodeBytes B).length = 0 ∨ (encodeBytes B).length = 4 := by omega
  simpa [EncRecord.wellFormed] using hcases

theorem EncRegs.length_leftover_le (e : EncRegs) : e.leftover.length ≤ 2 := by
  simp [leftover]

@[simp] theorem EncRegs.leftover_reset : EncRegs.reset.leftover = [] := rfl

/-- `ENC.PUSH` adds its byte to the leftover bytes, or completes a group of them, emits it and resets the encoder
(41_encoder.md R125). -/
theorem exec_encPush_cases (b : Byte) {s : State} (hs : s.enc.cnt ≠ 3) :
    ∃ e cs, exec (.encPush b) s = .next ((s.setEnc e).respondEnc ⟨cs, false⟩) ∧ (s.enc.Inv → e.Inv) ∧ e.cnt ≠ 3 ∧
      ((e.leftover = s.enc.leftover ++ [b] ∧ cs = []) ∨
        (e = EncRegs.reset ∧ s.enc.leftover = [s.enc.b0, s.enc.b1] ∧ cs = charsFull s.enc.b0 s.enc.b1 b)) := by
  rcases two_bit_cases s.enc.cnt with h | h | h | h
  · exact ⟨_, _, exec_encPush_of_cnt_zero b h, fun hinv => by simpa [EncRegs.Inv] using (hinv.2.1 h).2, by simp,
      .inl ⟨by simp [EncRegs.leftover, h], rfl⟩⟩
  · exact ⟨_, _, exec_encPush_of_cnt_one b h, by simp [EncRegs.Inv], by simp, .inl ⟨by simp [EncRegs.leftover, h], rfl⟩⟩
  · exact ⟨_, _, exec_encPush_of_cnt_two b h, by simp [EncRegs.Inv], by simp,
      .inr ⟨rfl, EncRegs.leftover_of_cnt_two h, rfl⟩⟩
  · exact absurd h hs

/-- Settles O18: what `ENC.PUSH` emits and what `ENC.FLUSH` then encodes are together the encoding of the leftover bytes and
the byte pushed. -/
theorem encPushlMergesPushAndFlush : Obligations.EncPushlMergesPushAndFlush := by
  intro b s hs
  obtain ⟨e, cs, hpush, -, he, hcs⟩ := exec_encPush_cases b hs
  have hflush : exec .encFlush ((s.setEnc e).respondEnc ⟨cs, false⟩) = .next _ := exec_encFlush he
  refine ⟨_, _, _, hpush, hflush, exec_encPushl b hs, rfl, ?_⟩
  have hlen : (s.enc.leftover ++ [b]).length ≤ 3 := by simpa using Nat.lt_succ_of_le s.enc.length_leftover_le
  have hlen' : e.leftover.length ≤ 3 := e.length_leftover_le.trans (by decide)
  have hwf : (EncRecord.mk cs false).wellFormed = true := by
    obtain ⟨-, rfl⟩ | ⟨-, -, rfl⟩ := hcs <;> rfl
  simp only [State.respondEnc_enc, State.setEnc_enc, shownEnc_respondEnc _ hwf,
    shownEnc_respondEnc _ (wellFormed_encodeBytes hlen _), shownEnc_respondEnc _ (wellFormed_encodeBytes hlen' _)]
  obtain ⟨hleft, rfl⟩ | ⟨rfl, hleft, rfl⟩ := hcs
  · simp [hleft]
  · simp [hleft, encodeBytes]

/-- Settles O27: `DEC.END` reports the status of the registers the character step leaves, and emits nothing. -/
theorem decPushlMergesPushAndEnd : Obligations.DecPushlMergesPushAndEnd := by
  intro c s
  refine ⟨_, _, _, exec_decPush c s, exec_decEnd _, exec_decPushl c s, rfl, ?_⟩
  rw [shownDec_respondDec _ (s.dec.wellFormed_char_end c), shownDec_respondDec _ (s.dec.wellFormed_char c),
    shownDec_respondDec _ (by simp [DecRecord.wellFormed])]
  simp

end Sys2Proof.Machine
end

section
/-! The padding structure: the decoder's abstract states and the transition table between them (42_decoder.md R159). -/

namespace Sys2Proof.Machine

/-- The registers of each abstract state (42_decoder.md R159). -/
inductive InPhase (d : DecRegs) : DecPhase → Prop where
  | G0 (he : d.err = .ok) (hc : d.closed = false) (hp : d.pad2 = false) (hpos : d.pos = 0) : InPhase d .G0
  | G1 (he : d.err = .ok) (hc : d.closed = false) (hp : d.pad2 = false) (hpos : d.pos = 1) : InPhase d .G1
  | G2 (he : d.err = .ok) (hc : d.closed = false) (hp : d.pad2 = false) (hpos : d.pos = 2) : InPhase d .G2
  | G3 (he : d.err = .ok) (hc : d.closed = false) (hp : d.pad2 = false) (hpos : d.pos = 3) : InPhase d .G3
  | P3 (he : d.err = .ok) (hc : d.closed = false) (hp : d.pad2 = true) (hpos : d.pos = 3) : InPhase d .P3
  | C0 (he : d.err = .ok) (hc : d.closed = true) (hpos : d.pos = 0) : InPhase d .C0
  | E (he : d.err ≠ .ok) : InPhase d .E

/-- Under the invariant an abstract state fixes position, flags and whether an error is latched. -/
theorem DecRegs.Inv.inPhase {d : DecRegs} (h : d.Inv) : InPhase d d.phase := by
  obtain ⟨-, hpad, hclosed, -⟩ := h
  by_cases he : d.err = .ok
  · cases hc : d.closed with
    | true => simpa [DecRegs.phase, he, hc] using InPhase.C0 he hc (hclosed he hc).1
    | false =>
      cases hp : d.pad2 with
      | true => simpa [DecRegs.phase, he, hc, hp] using InPhase.P3 he hc hp (hpad he hp).1
      | false =>
        rcases two_bit_cases d.pos with h | h | h | h
        · simpa [DecRegs.phase, he, hc, hp, h] using InPhase.G0 he hc hp h
        · simpa [DecRegs.phase, he, hc, hp, h] using InPhase.G1 he hc hp h
        · simpa [DecRegs.phase, he, hc, hp, h] using InPhase.G2 he hc hp h
        · simpa [DecRegs.phase, he, hc, hp, h] using InPhase.G3 he hc hp h
  · simpa [DecRegs.phase, he] using InPhase.E he

/-- A character step with registers and bytes `r` is as the table's entry `e` says: next abstract state, error, number of
bytes. -/
def MeetsEntry (r : DecRegs × List Byte) (e : DecPhase × Option Code × Nat) : Prop :=
  r.1.phase = e.1 ∧ (∀ k, e.2.1 = some k → r.1.err = k) ∧ r.2.length = e.2.2

section Entries
variable {d : DecRegs} {c : Byte}

theorem meetsEntry_of_inv (he : d.err = .ok) (hk : (C2S c).1 = .inv) :
    MeetsEntry (d.char c) (.E, some .invalidSymbol, 0) := by
  simp [DecRegs.char_of_inv he hk, MeetsEntry, DecRegs.phase]

theorem meetsEntry_of_sym_after_padding (he : d.err = .ok) (hk : (C2S c).1 = .sym) (hp : d.closed = true ∨ d.pad2 = true) :
    MeetsEntry (d.char c) (.E, some .malformedPadding, 0) := by
  simp [DecRegs.char_of_sym_after_padding he hk hp, MeetsEntry, DecRegs.phase]

theorem meetsEntry_of_pad_misplaced (he : d.err = .ok) (hk : (C2S c).1 = .pad)
    (hp : d.closed = true ∨ d.pos = 0 ∨ d.pos = 1) :
    MeetsEntry (d.char c) (.E, some .malformedPadding, 0) := by
  simp [DecRegs.char_of_pad_misplaced he hk hp, MeetsEntry, DecRegs.phase]

/-- The character step follows the table from every abstract state. -/
theorem InPhase.meetsEntry_char {p : DecPhase} (h : InPhase d p) (c : Byte) :
    MeetsEntry (d.char c) (phaseStep p (C2S c).1) := by
  cases h with
  | G0 he hc hp hpos =>
    cases hk : (C2S c).1 with
    | inv => exact meetsEntry_of_inv he hk
    | sym =>
      rw [DecRegs.char_of_sym he hk hc hp, DecRegs.acceptSym_at_zero _ hpos]
      simp [MeetsEntry, phaseStep, DecRegs.phase, he, hc, hp]
    | pad => exact meetsEntry_of_pad_misplaced he hk (.inr (.inl hpos))
  | G1 he hc hp hpos =>
    cases hk : (C2S c).1 with
    | inv => exact meetsEntry_of_inv he hk
    | sym =>
      rw [DecRegs.char_of_sym he hk hc hp, DecRegs.acceptSym_at_one _ hpos]
      simp [MeetsEntry, phaseStep, DecRegs.phase, he, hc, hp]
    | pad => exact meetsEntry_of_pad_misplaced he hk (.inr (.inr hpos))
  | G2 he hc hp hpos =>
    cases hk : (C2S c).1 with
    | inv => exact meetsEntry_of_inv he hk
    | sym =>
      rw [DecRegs.char_of_sym he hk hc hp, DecRegs.acceptSym_at_two _ hpos]
      simp [MeetsEntry, phaseStep, DecRegs.phase, he, hc, hp]
    | pad =>
      rw [DecRegs.char_of_pad he hk hc (.inl hpos), DecRegs.acceptPad_at_two hpos]
      simp [MeetsEntry, phaseStep, DecRegs.phase, he, hc]
  | G3 he hc hp hpos =>
    cases hk : (C2S c).1 with
    | inv => exact meetsEntry_of_inv he hk
    | sym =>
      rw [DecRegs.char_of_sym he hk hc hp, DecRegs.acceptSym_at_three _ hpos]
      simp [MeetsEntry, phaseStep, DecRegs.phase, he, hc, hp, bytes3]
    | pad =>
      rw [DecRegs.char_of_pad he hk hc (.inr hpos), DecRegs.acceptPad_at_three hpos]
      simp [MeetsEntry, phaseStep, DecRegs.phase, he, hp, bytes2]
  | P3 he hc hp hpos =>
    cases hk : (C2S c).1 with
    | inv => exact meetsEntry_of_inv he hk
    | sym => exact meetsEntry_of_sym_after_padding he hk (.inr hp)
    | pad =>
      rw [DecRegs.char_of_pad he hk hc (.inr hpos), DecRegs.acceptPad_at_three hpos]
      simp [MeetsEntry, phaseStep, DecRegs.phase, he, hp, bytes1]
  | C0 he hc hpos =>
    cases hk : (C2S c).1 with
    | inv => exact meetsEntry_of_inv he hk
    | sym => exact meetsEntry_of_sym_after_padding he hk (.inl hc)
    | pad => exact meetsEntry_of_pad_misplaced he hk (.inl hc)
  | E he =>
    rw [DecRegs.char_of_err he]
    cases (C2S c).1 <;> simp [MeetsEntry, phaseStep, DecRegs.phase, he]

/-- A step to `G1`, `G2` or `G3` is one of an accepted symbol. -/
theorem sym_of_phase_char {p q : DecPhase} (h : InPhase d p) (hq : (d.char c).1.phase = q)
    (hqs : q = .G1 ∨ q = .G2 ∨ q = .G3) : (C2S c).1 = .sym := by
  obtain ⟨hph, -⟩ := h.meetsEntry_char c
  rw [hq] at hph
  subst hph
  cases h <;> cases hk : (C2S c).1 <;> simp [hk, phaseStep] at hqs ⊢

/-- The stores of the character step (42_decoder.md R159): a symbol is kept in the register of its position. -/
theorem stores_char (h : d.Inv) (c : Byte) :
    (d.phase = .G0 → (d.char c).1.phase = .G1 → (d.char c).1.s0 = (C2S c).2) ∧
    (d.phase = .G1 → (d.char c).1.phase = .G2 → (d.char c).1.s1 = (C2S c).2) ∧
    (d.phase = .G2 → (d.char c).1.phase = .G3 → (d.char c).1.s2 = (C2S c).2) := by
  have hin := h.inPhase
  refine ⟨fun hph hq => ?_, fun hph hq => ?_, fun hph hq => ?_⟩ <;> rw [hph] at hin <;>
    have hk := sym_of_phase_char hin hq (by simp) <;> cases hin
  case G0 he hc hp hpos => rw [DecRegs.char_of_sym he hk hc hp, DecRegs.acceptSym_at_zero _ hpos]
  case G1 he hc hp hpos => rw [DecRegs.char_of_sym he hk hc hp, DecRegs.acceptSym_at_one _ hpos]
  case G2 he hc hp hpos => rw [DecRegs.char_of_sym he hk hc hp, DecRegs.acceptSym_at_two _ hpos]

/-- The table's column for the end of the message (42_decoder.md R159). -/
theorem endStatus_of_phase (h : d.Inv) :
    (d.phase = .G0 ∨ d.phase = .C0 → d.endStatus = .ok) ∧
    (d.phase = .G1 ∨ d.phase = .G2 ∨ d.phase = .G3 ∨ d.phase = .P3 → d.endStatus = .malformedLength) := by
  have hin := h.inPhase
  refine ⟨?_, ?_⟩
  · rintro (hph | hph) <;> rw [hph] at hin <;> cases hin <;> simp [DecRegs.endStatus, *]
  · rintro (hph | hph | hph | hph) <;> rw [hph] at hin <;> cases hin <;> simp [DecRegs.endStatus, *]

end Entries

/-- Settles O34: `DEC.PUSH` does the character step (`InPhase.meetsEntry_char`), and `DEC.END` reports the end step's status
(`endStatus_of_phase`). -/
theorem paddingTransitionTable : Obligations.PaddingTransitionTable := by
  intro c s h
  obtain ⟨hphase, herr, hlen⟩ := h.inPhase.meetsEntry_char c
  refine ⟨⟨_, exec_decPush c s, s.dec.char_pos c, hphase, herr, fun hE => ?_, ?_, stores_char h c⟩,
    ⟨_, exec_decEnd s, rfl, ?_⟩⟩
  · cases hE ▸ h.inPhase with
    | E he => exact congrArg (fun r => r.1.err) (DecRegs.char_of_err he)
  · rw [shownDec_respondDec _ (s.dec.wellFormed_char c)]
    exact hlen
  · rw [shownDec_respondDec _ (by simp [DecRecord.wellFormed])]
    obtain ⟨hok, hlength⟩ := endStatus_of_phase h
    exact ⟨hok, hlength, fun _ => (ite_not ..).symm⟩

end Sys2Proof.Machine
end

section
/-! The invariants of 10_state.md R32 over a clock cycle, and the cycle itself: it never stops, shows only possible words, is
the handshake of 30_encoding.md R75 around `exec`, and keeps the two units apart (20_memory.md R59). -/

namespace Sys2Proof.Machine

/-! The invariants -/

theorem EncRegs.inv_reset : EncRegs.reset.Inv := by simp [EncRegs.Inv]

theorem DecRegs.inv_reset : DecRegs.reset.Inv := by simp [DecRegs.Inv]

/-- Settles O37: the reset registers and the idle ports. -/
theorem invariantHoldsAtReset : Obligations.InvariantHoldsAtReset :=
  ⟨⟨EncRegs.inv_reset, DecRegs.inv_reset⟩, .inl ⟨rfl, rfl⟩, .inl ⟨rfl, rfl⟩⟩

/-- Every encoder command keeps the encoder's invariants (10_state.md R32 points 1 and 2). -/
theorem exec_encCmd_inv {i : Instr} {s t : State} (hi : i.port = .encCmd) (hs : s.enc.Inv) (h : exec i s = .next t) :
    t.enc.Inv := by
  have hcnt : s.enc.cnt ≠ 3 := hs.1
  cases i with
  | encNop => cases h; exact hs
  | encPush b =>
    obtain ⟨e, cs, hpush, hinv, -⟩ := exec_encPush_cases b hcnt
    cases hpush.symm.trans h
    exact hinv hs
  | encFlush => cases (exec_encFlush hcnt).symm.trans h; exact EncRegs.inv_reset
  | encPushl b => cases (exec_encPushl b hcnt).symm.trans h; exact EncRegs.inv_reset
  | _ => cases hi

/-- Registers with a latched error meet the decoder's invariants, whatever the rest: only the code is restricted. -/
theorem DecRegs.inv_of_err {d : DecRegs} (he : d.err ≠ .ok) (hl : d.err ≠ .malformedLength) : d.Inv := by
  simp [DecRegs.Inv, he, hl]

/-- The character step keeps the decoder's invariants (10_state.md R32 points 3 to 7). -/
theorem DecRegs.Inv.char {d : DecRegs} (h : d.Inv) (c : Byte) : (d.char c).1.Inv := by
  obtain ⟨hlen, hpad, hclosed, h0, h1, h2⟩ := h
  rcases d.char_cases c with ⟨he, hch⟩ | ⟨-, -, hch⟩ | ⟨-, -, -, hch⟩ | ⟨he, -, hp, hch⟩ | ⟨-, -, -, hch⟩ | ⟨he, -, hp, hch⟩ <;>
    rw [hch]
  · exact DecRegs.inv_of_err he hlen
  · exact DecRegs.inv_of_err (by simp) (by simp)
  · exact DecRegs.inv_of_err (by simp) (by simp)
  · obtain ⟨hc, hp⟩ : d.closed = false ∧ d.pad2 = false := by simpa [DecRegs.afterPadding] using hp
    rcases two_bit_cases d.pos with hpos | hpos | hpos | hpos
    · simp [DecRegs.acceptSym_at_zero _ hpos, DecRegs.Inv, he, hc, hp, h0 he hpos]
    · simp [DecRegs.acceptSym_at_one _ hpos, DecRegs.Inv, he, hc, hp, h1 he hpos]
    · simp [DecRegs.acceptSym_at_two _ hpos, DecRegs.Inv, he, hc, hp]
    · simp [DecRegs.acceptSym_at_three _ hpos, DecRegs.Inv, he, hc, hp]
  · exact DecRegs.inv_of_err (by simp) (by simp)
  · obtain ⟨hc, hp⟩ : d.closed = false ∧ d.pos.ult 2 = false := by simpa [DecRegs.padMisplaced] using hp
    rcases two_bit_cases d.pos with hpos | hpos | hpos | hpos
    · simp [hpos] at hp
    · simp [hpos] at hp
    · simp [DecRegs.acceptPad_at_two hpos, DecRegs.Inv, he, hc, h2 he hpos]
    · simp [DecRegs.acceptPad_at_three hpos, DecRegs.Inv, he]

/-- Every decoder command keeps the decoder's invariants. -/
theorem exec_decCmd_inv {i : Instr} {s t : State} (hi : i.port = .decCmd) (hs : s.dec.Inv) (h : exec i s = .next t) :
    t.dec.Inv := by
  cases i with
  | decNop => cases h; exact hs
  | decPush c => cases (exec_decPush c s).symm.trans h; exact hs.char c
  | decEnd => cases h; exact DecRegs.inv_reset
  | decPushl c => cases h; exact DecRegs.inv_reset
  | _ => cases hi

/-! A cycle as each unit sees it -/

@[simp] theorem State.resetEdge_enc (s : State) (b : Bool) : (s.resetEdge b).enc = if b then EncRegs.reset else s.enc := by
  cases b <;> rfl

@[simp] theorem State.resetEdge_dec (s : State) (b : Bool) : (s.resetEdge b).dec = if b then DecRegs.reset else s.dec := by
  cases b <;> rfl

section Cycles
variable {c : Cycle} {s t : State}

theorem EncCycle.of_none (h : EncCycle c s t) (hp : c.encPresented = none) :
    t.enc = (if c.rst then EncRegs.reset else s.enc) ∧ t.pins.encRspValid = false ∧ t.pins.encRsp = 0 := by
  obtain ⟨-, h⟩ := h
  rw [hp] at h
  simpa using h

theorem DecCycle.of_none (h : DecCycle c s t) (hp : c.decPresented = none) :
    t.dec = (if c.rst then DecRegs.reset else s.dec) ∧ t.pins.decRspValid = false ∧ t.pins.decRsp = 0 := by
  obtain ⟨-, h⟩ := h
  rw [hp] at h
  simpa using h

/-- A command presented to the encoder shows the response `exec` gives, and writes the registers `exec` writes if it fires
(30_encoding.md R75). -/
theorem EncCycle.of_some (h : EncCycle c s t) {i : Instr} (hp : c.encPresented = some i) :
    ∃ u, exec i s = .next u ∧ t.pins.encRspValid = u.pins.encRspValid ∧ t.pins.encRsp = u.pins.encRsp ∧
      t.enc = if c.encRspReady then u.enc else s.enc := by
  obtain ⟨-, h⟩ := h
  rw [hp] at h
  obtain ⟨e, r, -, hexec, henc, hvalid, hrsp⟩ := h
  exact ⟨_, hexec s rfl, hvalid, hrsp, henc⟩

/-- As `EncCycle.of_some`, for the decoder. -/
theorem DecCycle.of_some (h : DecCycle c s t) {i : Instr} (hp : c.decPresented = some i) :
    ∃ u, exec i s = .next u ∧ t.pins.decRspValid = u.pins.decRspValid ∧ t.pins.decRsp = u.pins.decRsp ∧
      t.dec = if c.decRspReady then u.dec else s.dec := by
  obtain ⟨-, h⟩ := h
  rw [hp] at h
  obtain ⟨d, q, -, hexec, hdec, hvalid, hrsp⟩ := h
  exact ⟨_, hexec s rfl, hvalid, hrsp, hdec⟩

theorem EncCycle.inv (h : EncCycle c s t) (hs : s.enc.Inv) : t.enc.Inv := by
  cases hp : c.encPresented with
  | none =>
    rw [(h.of_none hp).1]
    cases c.rst
    · exact hs
    · exact EncRegs.inv_reset
  | some i =>
    obtain ⟨u, hu, -, -, henc⟩ := h.of_some hp
    rw [henc]
    cases c.encRspReady
    · exact hs
    · exact exec_encCmd_inv (encPresented_port hp) hs hu

theorem DecCycle.inv (h : DecCycle c s t) (hs : s.dec.Inv) : t.dec.Inv := by
  cases hp : c.decPresented with
  | none =>
    rw [(h.of_none hp).1]
    cases c.rst
    · exact hs
    · exact DecRegs.inv_reset
  | some i =>
    obtain ⟨u, hu, -, -, hdec⟩ := h.of_some hp
    rw [hdec]
    cases c.decRspReady
    · exact hs
    · exact exec_decCmd_inv (decPresented_port hp) hs hu

theorem EncCycle.erspShape (h : EncCycle c s t) : ErspShape t.pins.encRspValid t.pins.encRsp := by
  cases hp : c.encPresented with
  | none => exact .inl (h.of_none hp).2
  | some i =>
    obtain ⟨u, hu, hvalid, hrsp, -⟩ := h.of_some hp
    rw [hvalid, hrsp]
    exact (encoderResponseWords.2 i s u (encPresented_port hp) hu).1

theorem DecCycle.drspShape (h : DecCycle c s t) : DrspShape t.pins.decRspValid t.pins.decRsp := by
  cases hp : c.decPresented with
  | none => exact .inl (h.of_none hp).2
  | some i =>
    obtain ⟨u, hu, hvalid, hrsp, -⟩ := h.of_some hp
    rw [hvalid, hrsp]
    exact (decoderResponseWords.2 i s u (decPresented_port hp) hu).1

end Cycles

theorem step_eq_clock (s : State) : step s = clock s.takeCycle.1 s.takeCycle.2 := rfl

/-- Settles O38: a cycle does to each unit a command, a reset or nothing, and each of them keeps the unit's invariants. -/
theorem stepKeepsTheInvariant : Obligations.StepKeepsTheInvariant := by
  intro s t hs h
  rw [step_eq_clock] at h
  obtain ⟨-, henc, hdec⟩ := clock_next h
  exact ⟨henc.inv (by simpa using hs.1), hdec.inv (by simpa using hs.2)⟩

@[simp] theorem State.takeCycle_pending (s : State) : s.takeCycle.2.pending = s.pending.tail := by
  unfold State.takeCycle
  split <;> simp [*]

/-- Settles O39: the one state in which a cycle stops has `enc.cnt = 3` (`clock_total`). -/
theorem stepNeverStopsUnderTheInvariant : Obligations.StepNeverStopsUnderTheInvariant := by
  intro s hs
  have hcnt : s.takeCycle.2.enc.cnt ≠ 3 := by simpa using hs.1.1
  obtain ⟨t, ht⟩ := clock_total s.takeCycle.1 s.takeCycle.2 hcnt
  exact ⟨t, ht, (clock_next ht).1.trans s.takeCycle_pending⟩

/-- Settles O40: each unit's ports show nothing or a command's response. -/
theorem stepShowsOnlyPossibleWords : Obligations.StepShowsOnlyPossibleWords := by
  intro s t h
  rw [step_eq_clock] at h
  obtain ⟨-, henc, hdec⟩ := clock_next h
  exact ⟨henc.erspShape, hdec.drspShape⟩

/-! The handshake -/

theorem Cycle.encPresented_eq_some {c : Cycle} (hv : c.encCmdValid = true) (hr : c.rst = false) :
    c.encPresented = some (decodeEnc c.encCmd) := by
  simp [Cycle.encPresented, hv, hr]

theorem Cycle.decPresented_eq_some {c : Cycle} (hv : c.decCmdValid = true) (hr : c.rst = false) :
    c.decPresented = some (decodeDec c.decCmd) := by
  simp [Cycle.decPresented, hv, hr]

theorem Cycle.encPresented_eq_none {c : Cycle} (h : c.encCmdValid = false ∨ c.rst = true) : c.encPresented = none := by
  rcases h with h | h <;> simp [Cycle.encPresented, h]

theorem Cycle.decPresented_eq_none {c : Cycle} (h : c.decCmdValid = false ∨ c.rst = true) : c.decPresented = none := by
  rcases h with h | h <;> simp [Cycle.decPresented, h]

/-- Settles O44: each unit's part of the cycle, with a command presented and without one. -/
theorem handshakeGovernsEachUnit : Obligations.HandshakeGovernsEachUnit := by
  intro c s t h
  obtain ⟨-, henc, hdec⟩ := clock_next h
  refine ⟨henc.1, hdec.1, fun hv hr => henc.of_some (Cycle.encPresented_eq_some hv hr), fun hn => ?_,
    fun hv hr => hdec.of_some (Cycle.decPresented_eq_some hv hr), fun hn => ?_⟩
  · obtain ⟨hregs, hvalid, hrsp⟩ := henc.of_none (Cycle.encPresented_eq_none hn)
    exact ⟨hvalid, hrsp, hregs⟩
  · obtain ⟨hregs, hvalid, hrsp⟩ := hdec.of_none (Cycle.decPresented_eq_none hn)
    exact ⟨hvalid, hrsp, hregs⟩

/-! A cycle that presents one word -/

/-- A cycle that presents one instruction, at one of the four ports and with the response side ready, is that instruction. -/
theorem clock_of_one {c : Cycle} {i : Instr} (s : State) (hready : c.encRspReady = true ∧ c.decRspReady = true)
    (hr : c.rst = false)
    (h : (c.encPresented = some i ∧ c.decPresented = none ∧ c.symRead = none ∧ c.chrRead = none) ∨
      (c.encPresented = none ∧ c.decPresented = some i ∧ c.symRead = none ∧ c.chrRead = none) ∨
      (c.encPresented = none ∧ c.decPresented = none ∧ c.symRead = some i ∧ c.chrRead = none) ∨
      (c.encPresented = none ∧ c.decPresented = none ∧ c.symRead = none ∧ c.chrRead = some i)) :
    clock c s = exec i (s.beginCycle Cycle.ready) := by
  have hbegin : s.beginCycle c = s.beginCycle Cycle.ready := by
    simp [State.beginCycle, hready, hr, Cycle.ready, Cycle.idle]
  have hret (o : Host.Outcome State Fault Refusal) : andThen o (fun t => .next t) = o := by cases o <;> rfl
  rcases h with ⟨h1, h2, h3, h4⟩ | ⟨h1, h2, h3, h4⟩ | ⟨h1, h2, h3, h4⟩ | ⟨h1, h2, h3, h4⟩ <;>
    simp [clock, h1, h2, h3, h4, hready, hr, hbegin, hret]

/-- The cycle that presents a word runs what the word decodes to. -/
theorem clock_cycleOf {p : PortWord} {i : Instr} (h : decodeWord p = .ok i) (s : State) :
    clock (cycleOf p) s = exec i (s.beginCycle Cycle.ready) := by
  obtain ⟨port, bits⟩ := p
  by_cases hw : (PortWord.mk port bits).wellFormed = true
  · cases port <;> simp only [decodeWord, cycleOf, hw, if_true, Except.ok.injEq] at h ⊢ <;> subst h <;>
      exact clock_of_one s ⟨rfl, rfl⟩ rfl (by simp [Cycle.encPresented, Cycle.decPresented, Cycle.symRead, Cycle.chrRead,
        Cycle.ready, Cycle.idle])
  · simp [decodeWord, hw] at h

theorem decodeTableWord_eq_some {nbits w : Nat} {i : Instr} (h : decodeTableWord nbits w = some i) :
    decodeWord (tableWord nbits w) = .ok i := by
  unfold decodeTableWord at h
  split at h
  next hw => rw [hw, Option.some.inj h]
  next => cases h

/-- Settles O43: a step takes the presenting cycle from the inputs, and that cycle is the instruction (`clock_cycleOf`). -/
theorem stepRunsTheDecodedInstruction : Obligations.StepRunsTheDecodedInstruction :=
  ⟨fun _ _ s cs h _ => clock_cycleOf h { s with pending := cs },
    fun _ _ _ s h => clock_cycleOf (decodeTableWord_eq_some h) s⟩

/-! The units apart -/

/-- Inputs to come that are alike under `f` stay so over a cycle, and the cycle's own inputs are alike. -/
theorem State.takeCycle_congr {β : Type} {f : Cycle → β} {s s' : State} (h : s.pending.map f = s'.pending.map f) :
    f s.takeCycle.1 = f s'.takeCycle.1 ∧ s.takeCycle.2.pending.map f = s'.takeCycle.2.pending.map f := by
  refine ⟨?_, by rw [State.takeCycle_pending, State.takeCycle_pending, List.map_tail, List.map_tail, h]⟩
  unfold State.takeCycle
  cases hp : s.pending <;> cases hp' : s'.pending <;> simp_all

/-- Two runs with alike inputs from alike registers stay alike, where one cycle keeps them so. `f` is what is alike of the
inputs, `g` of the registers, and `R` is what the cycles show. -/
theorem runCycles_congr {β γ : Type} {f : Cycle → β} {g : State → γ} {R : State → State → Prop}
    (htake : ∀ s : State, g s.takeCycle.2 = g s) (hR : ∀ {t t' : State}, R t t' → g t = g t')
    (hclock : ∀ {c c' : Cycle} {s s' t t' : State}, f c = f c' → g s = g s' → clock c s = .next t → clock c' s' = .next t' →
      R t t')
    {n : Nat} {s s' : State} {ts ts' : List State} (h : runCycles n s = some ts) (h' : runCycles n s' = some ts')
    (hg : g s = g s') (hf : s.pending.map f = s'.pending.map f) : List.Forall₂ R ts ts' := by
  induction n generalizing s s' ts ts' with
  | zero => cases h; cases h'; exact .nil
  | succ n ih =>
    obtain ⟨t, us, ht, hus, rfl⟩ := runCycles_succ h
    obtain ⟨t', us', ht', hus', rfl⟩ := runCycles_succ h'
    obtain ⟨hc, hrest⟩ := State.takeCycle_congr hf
    have hshown : R t t' := hclock hc (by rw [htake, htake, hg]) ht ht'
    refine .cons hshown (ih hus hus' (hR hshown) ?_)
    rwa [(clock_next ht).1, (clock_next ht').1]

/-- A cycle's part at the encoder is fixed by the encoder's registers and the inputs that reach it. -/
theorem EncCycle.congr {c c' : Cycle} {s s' t t' : State} (hc : c.encInputs = c'.encInputs) (hs : s.enc = s'.enc)
    (h : EncCycle c s t) (h' : EncCycle c' s' t') : sameEnc t t' := by
  obtain ⟨hrst, hvalid, hcmd, hready⟩ : c.rst = c'.rst ∧ c.encCmdValid = c'.encCmdValid ∧ c.encCmd = c'.encCmd ∧
      c.encRspReady = c'.encRspReady := by simpa [Cycle.encInputs] using hc
  have hp : c'.encPresented = c.encPresented := by simp [Cycle.encPresented, hrst, hvalid, hcmd]
  have hcmdReady : t.pins.encCmdReady = t'.pins.encCmdReady := by rw [h.1, h'.1, hrst, hready]
  cases hi : c.encPresented with
  | none =>
    obtain ⟨henc, hv, hw⟩ := h.of_none hi
    obtain ⟨henc', hv', hw'⟩ := h'.of_none (hp.trans hi)
    exact ⟨by rw [henc, henc', hrst, hs], hcmdReady, by rw [hv, hv'], by rw [hw, hw']⟩
  | some i =>
    obtain ⟨u, hu, hv, hw, henc⟩ := h.of_some hi
    obtain ⟨u', hu', hv', hw', henc'⟩ := h'.of_some (hp.trans hi)
    obtain ⟨e, r, rfl, hr⟩ := exec_encCmd_congr (encPresented_port hi) hs hu
    cases hr.symm.trans hu'
    exact ⟨by rw [henc, henc', hready, hs]; rfl, hcmdReady, by rw [hv, hv']; rfl, by rw [hw, hw']; rfl⟩

/-- A cycle's part at the decoder is fixed by the decoder's registers and the inputs that reach it. -/
theorem DecCycle.congr {c c' : Cycle} {s s' t t' : State} (hc : c.decInputs = c'.decInputs) (hs : s.dec = s'.dec)
    (h : DecCycle c s t) (h' : DecCycle c' s' t') : sameDec t t' := by
  obtain ⟨hrst, hvalid, hcmd, hready⟩ : c.rst = c'.rst ∧ c.decCmdValid = c'.decCmdValid ∧ c.decCmd = c'.decCmd ∧
      c.decRspReady = c'.decRspReady := by simpa [Cycle.decInputs] using hc
  have hp : c'.decPresented = c.decPresented := by simp [Cycle.decPresented, hrst, hvalid, hcmd]
  have hcmdReady : t.pins.decCmdReady = t'.pins.decCmdReady := by rw [h.1, h'.1, hrst, hready]
  cases hi : c.decPresented with
  | none =>
    obtain ⟨hdec, hv, hw⟩ := h.of_none hi
    obtain ⟨hdec', hv', hw'⟩ := h'.of_none (hp.trans hi)
    exact ⟨by rw [hdec, hdec', hrst, hs], hcmdReady, by rw [hv, hv'], by rw [hw, hw']⟩
  | some i =>
    obtain ⟨u, hu, hv, hw, hdec⟩ := h.of_some hi
    obtain ⟨u', hu', hv', hw', hdec'⟩ := h'.of_some (hp.trans hi)
    obtain ⟨d, q, rfl, hq⟩ := exec_decCmd_congr (decPresented_port hi) hs hu
    cases hq.symm.trans hu'
    exact ⟨by rw [hdec, hdec', hready, hs]; rfl, hcmdReady, by rw [hv, hv']; rfl, by rw [hw, hw']; rfl⟩

/-- Settles O48, by induction on the cycles (`runCycles_congr`): one cycle keeps the two runs alike at the unit. -/
theorem unitsDoNotInterfere : Obligations.UnitsDoNotInterfere := by
  refine fun n s s' ts ts' h h' => ⟨fun hs hp => ?_, fun hs hp => ?_⟩
  · exact runCycles_congr State.takeCycle_enc (fun hR => hR.1)
      (fun hc hs ht ht' => (clock_next ht).2.1.congr hc hs (clock_next ht').2.1) h h' hs hp
  · exact runCycles_congr State.takeCycle_dec (fun hR => hR.1)
      (fun hc hs ht ht' => (clock_next ht).2.2.congr hc hs (clock_next ht').2.2) h h' hs hp

end Sys2Proof.Machine
end

section
/-! What both units' messages have in common (43_message_contract.md R192, R193; 70_reset_and_hazards.md R276): a unit as a
relation between its registers and the data received and output given so far, the runs of such a unit, and the messages of a
run. Each of the two units is such a relation, and the untimed and the clocked runs of the machine are runs of it. -/

namespace Sys2Proof.Machine

/-! Runs without reset: the messages depend on the items alone -/

@[simp] theorem items_eventOf {R : Type} (r : Option R) : (eventOf false r).items = r.toList := by
  cases r <;> rfl

@[simp] theorem flatMap_items_map_item {R : Type} (rs : List R) : (rs.map Event.item).flatMap Event.items = rs := by
  rw [List.flatMap_map]
  exact List.flatMap_singleton' rs

section Items
variable {R : Type} {last : R → Bool}

/-- Without a reset the items of a run are those of its messages in order, then those left unfinished. -/
theorem items_eq_of_no_reset {es : List (Event R)} (h : .reset ∉ es) (acc : List R) :
    acc ++ es.flatMap Event.items =
      (endedFrom last acc es).flatMap (fun m => m.1 ++ [m.2]) ++ openAfter last acc es := by
  induction es generalizing acc with
  | nil => simp [openAfter]
  | cons e es ih =>
    obtain ⟨he, hes⟩ : .reset ≠ e ∧ .reset ∉ es := by simpa using h
    cases e with
    | quiet => simpa [openAfter, Event.items] using ih hes acc
    | reset => exact absurd rfl he
    | item r =>
      cases hr : last r with
      | true => simpa [openAfter, endedFrom_item, Event.items, hr] using ih hes []
      | false => simpa [openAfter, endedFrom_item, Event.items, hr] using ih hes (acc ++ [r])

/-- The last item of a message has the end mark and no other item of it has; the items left unfinished have none. -/
theorem last_of_endedFrom (es : List (Event R)) {acc : List R} (hacc : ∀ q ∈ acc, last q = false) :
    (∀ m ∈ endedFrom last acc es, (∀ q ∈ m.1, last q = false) ∧ last m.2 = true) ∧
      ∀ q ∈ openAfter last acc es, last q = false := by
  induction es generalizing acc with
  | nil => simpa [openAfter] using hacc
  | cons e es ih =>
    cases e with
    | quiet => simpa [openAfter] using ih hacc
    | reset => simpa [openAfter] using ih (acc := []) (by simp)
    | item r =>
      cases hr : last r with
      | true =>
        obtain ⟨hended, hopen⟩ := ih (acc := []) (by simp)
        refine ⟨?_, by simpa [openAfter, hr] using hopen⟩
        rw [endedFrom_item, hr, if_pos rfl, List.forall_mem_cons]
        exact ⟨⟨hacc, hr⟩, hended⟩
      | false =>
        have hacc' : ∀ q ∈ acc ++ [r], last q = false := by simpa [or_imp, forall_and, hr] using hacc
        simpa [openAfter, endedFrom_item, hr] using ih hacc'

/-- Without a reset a run has the messages of its items. -/
theorem endedFrom_items_of_no_reset {es : List (Event R)} (h : .reset ∉ es) (acc : List R) :
    endedFrom last acc es = endedFrom last acc ((es.flatMap Event.items).map .item) ∧
      openAfter last acc es = openAfter last acc ((es.flatMap Event.items).map .item) := by
  induction es generalizing acc with
  | nil => exact ⟨rfl, rfl⟩
  | cons e es ih =>
    obtain ⟨he, hes⟩ : .reset ≠ e ∧ .reset ∉ es := by simpa using h
    cases e with
    | quiet => simpa [openAfter, Event.items] using ih hes acc
    | reset => exact absurd rfl he
    | item r => cases hr : last r <;> simp [openAfter, endedFrom_item, Event.items, hr, ih hes]

end Items

/-! The messages sent -/

/-- The commands of one message: the last, and only it, has the end mark, and together they carry `B`. -/
def IsMessage (is : List Instr) (B : List Byte) : Prop :=
  ∃ body fin, is = body ++ [fin] ∧ (∀ i ∈ body, endsMessage i = false) ∧ endsMessage fin = true ∧ is.flatMap carried = B

theorem isMessage_encMsg (B : List Byte) : IsMessage (encMsg B) B :=
  ⟨_, _, rfl, by simp [endsMessage], rfl, by simp [encMsg, List.flatMap_map, carried]⟩

theorem isMessage_encMsgl (B : List Byte) (x : Byte) : IsMessage (encMsgl B x) (B ++ [x]) :=
  ⟨_, _, rfl, by simp [endsMessage], rfl, by simp [encMsgl, List.flatMap_map, carried]⟩

theorem isMessage_decMsg (S : List Byte) : IsMessage (decMsg S) S :=
  ⟨_, _, rfl, by simp [endsMessage], rfl, by simp [decMsg, List.flatMap_map, carried]⟩

theorem isMessage_decMsgl (S : List Byte) (x : Byte) : IsMessage (decMsgl S x) (S ++ [x]) :=
  ⟨_, _, rfl, by simp [endsMessage], rfl, by simp [decMsgl, List.flatMap_map, carried]⟩

theorem notNop_eq_false {i : Instr} : notNop i = false ↔ i = .encNop ∨ i = .decNop := by
  simp [notNop, or_iff_not_imp_left]

/-- `NOP`s end no message and carry nothing (30_encoding.md R72). -/
theorem nop_carries_nothing {i : Instr} (h : notNop i = false) : endsMessage i = false ∧ carried i = [] := by
  obtain rfl | rfl := notNop_eq_false.1 h <;> exact ⟨rfl, rfl⟩

theorem flatMap_carried_filter (is : List Instr) : (is.filter notNop).flatMap carried = is.flatMap carried := by
  induction is with
  | nil => rfl
  | cons i is ih =>
    cases hi : notNop i with
    | true => simp [hi, ih]
    | false => simp [hi, ih, (nop_carries_nothing hi).2]

/-- Commands without an end mark end no message, and all of them are left unfinished. -/
theorem endedFrom_of_no_end {is : List Instr} (h : ∀ i ∈ is, endsMessage i = false) (acc : List Instr) :
    endedFrom endsMessage acc (is.map .item) = [] ∧ openAfter endsMessage acc (is.map .item) = acc ++ is := by
  simpa using endedFrom_openAfter_of_uncut (last := endsMessage) (es := is.map .item) (by simpa using h) acc

/-- A run without reset whose commands but the `NOP`s are a message sends that message, and leaves no data unfinished. -/
theorem sent_of_isMessage {es : List (Event Instr)} {B : List Byte} (hreset : .reset ∉ es)
    (h : IsMessage ((es.flatMap Event.items).filter notNop) B) :
    ∃ m, endedFrom endsMessage [] es = [m] ∧ (m.1 ++ [m.2]).flatMap carried = B ∧
      (openAfter endsMessage [] es).flatMap carried = [] := by
  obtain ⟨hended, hopen⟩ := endedFrom_items_of_no_reset (last := endsMessage) hreset []
  rw [hended, hopen]
  generalize es.flatMap Event.items = is at h
  obtain ⟨body, fin, his, hbody, hfin, hB⟩ := h
  obtain ⟨is₁, is₂, rfl, h₁, h₂⟩ := List.filter_eq_append_iff.1 his
  obtain ⟨nops, post, rfl, hnops, -, hpost⟩ := List.filter_eq_cons_iff.1 h₂
  have hpostNop : ∀ i ∈ post, notNop i = false := by simpa [List.filter_eq_nil_iff] using hpost
  have hpre : ∀ i ∈ is₁ ++ nops, endsMessage i = false := by
    intro i hi
    cases hn : notNop i with
    | false => exact (nop_carries_nothing hn).1
    | true =>
      rcases List.mem_append.1 hi with hi | hi
      · exact hbody i (h₁ ▸ List.mem_filter.2 ⟨hi, hn⟩)
      · exact absurd hn (hnops i hi)
  have hpostData : post.flatMap carried = [] := by
    simpa using fun i hi => (nop_carries_nothing (hpostNop i hi)).2
  obtain ⟨hpreEnded, hpreOpen⟩ := endedFrom_of_no_end hpre []
  obtain ⟨hpostEnded, hpostOpen⟩ := endedFrom_of_no_end (fun i hi => (nop_carries_nothing (hpostNop i hi)).1) []
  have hsplit : (is₁ ++ (nops ++ fin :: post)).map Event.item =
      (is₁ ++ nops).map Event.item ++ .item fin :: post.map .item := by simp
  refine ⟨(is₁ ++ nops, fin), ?_, ?_, ?_⟩
  · rw [hsplit, endedFrom_append, hpreEnded, hpreOpen, endedFrom_item, hfin, if_pos rfl, hpostEnded]
    rfl
  · rw [flatMap_carried_filter] at hB
    rw [← hB]
    simp [hpostData]
  · rw [hsplit, openAfter_append, openAfter, hfin, if_pos rfl, hpostOpen]
    simpa using hpostData

/-! A unit and its runs -/

/-- A unit as its messages see it. `holds P out e`: with registers `e` the unit is in a message in which it has received the
data `P` and given the output `out`. `gives P out r`: a message of data `P` is answered by the output `out` and the last record
`r`. -/
structure Contract (σ R : Type) where
  reset : σ
  last : R → Bool
  elems : R → List Byte
  holds : List Byte → List Byte → σ → Prop
  gives : List Byte → List Byte → R → Prop
  /-- Between messages the registers are the reset ones. -/
  holds_nil : ∀ {out e}, holds [] out e ↔ out = [] ∧ e = reset

namespace Contract

variable {σ R : Type} (U : Contract σ R)

/-- What the host sees of a record: a beat where it has an element or the end mark (30_encoding.md R75, `nonnull`). -/
def shows (r : R) : Event R := if !(U.elems r).isEmpty || U.last r then .item r else .quiet

/-- The command `i` with registers `e` writes `e'` and responds with `r` as the contract wants: the end mark ends the message
and leaves the reset registers, any other command extends it. -/
def Answers (e : σ) (i : Instr) (e' : σ) (r : R) : Prop :=
  ∀ P out, U.holds P out e →
    (endsMessage i = true → U.last r = true ∧ e' = U.reset ∧ U.gives (P ++ carried i) (out ++ U.elems r) r) ∧
    (endsMessage i = false → U.last r = false ∧ U.holds (P ++ carried i) (out ++ U.elems r) e')

/-- One cycle of the unit, by what is sent to it, what is seen of it and its registers before and after. -/
inductive Step : σ → Event Instr → Event R → σ → Prop where
  | quiet (e : σ) : Step e .quiet .quiet e
  | reset (e : σ) : Step e .reset .reset U.reset
  | command {e e' : σ} {i : Instr} {r : R} (h : U.Answers e i e' r) : Step e (.item i) (U.shows r) e'

/-- Cycles one after another. -/
inductive Run : σ → List (Event Instr) → List (Event R) → σ → Prop where
  | nil (e : σ) : Run e [] [] e
  | cons {e e' e'' : σ} {a : Event Instr} {b : Event R} {as : List (Event Instr)} {bs : List (Event R)}
      (h : U.Step e a b e') (hs : Run e' as bs e'') : Run e (a :: as) (b :: bs) e''

/-- The answer `n` to the message sent as `m` is as the contract wants. -/
def Given (m : List Instr × Instr) (n : List R × R) : Prop :=
  U.gives ((m.1 ++ [m.2]).flatMap carried) ((n.1 ++ [n.2]).flatMap U.elems) n.2

variable {U}

/-- The messages of a run: those that end are answered in order, and the registers hold the one left unfinished. `is` and `rs`
are the commands and records of the message the run begins in. -/
theorem Run.messages {e e' : σ} {as : List (Event Instr)} {bs : List (Event R)} (h : U.Run e as bs e') (is : List Instr)
    (rs : List R) (he : U.holds (is.flatMap carried) (rs.flatMap U.elems) e) :
    List.Forall₂ U.Given (endedFrom endsMessage is as) (endedFrom U.last rs bs) ∧
      U.holds ((openAfter endsMessage is as).flatMap carried) ((openAfter U.last rs bs).flatMap U.elems) e' := by
  induction h generalizing is rs with
  | nil e => exact ⟨by simp, he⟩
  | cons hstep _ ih =>
    cases hstep with
    | quiet => simpa [openAfter] using ih is rs he
    | reset => simpa [openAfter] using ih [] [] (U.holds_nil.2 ⟨rfl, rfl⟩)
    | @command _ i r hans =>
      obtain ⟨hend, hmore⟩ := hans _ _ he
      cases hi : endsMessage i with
      | true =>
        obtain ⟨hr, rfl, hgives⟩ := hend hi
        obtain ⟨hmsgs, hopen⟩ := ih [] [] (U.holds_nil.2 ⟨rfl, rfl⟩)
        rw [show U.shows r = .item r by simp [shows, hr]]
        simp only [endedFrom_item, openAfter, hi, hr, if_true]
        exact ⟨.cons (by simpa [Given] using hgives) hmsgs, hopen⟩
      | false =>
        obtain ⟨hr, hholds⟩ := hmore hi
        simp only [endedFrom_item, openAfter, hi, Bool.false_eq_true, if_false]
        by_cases hb : U.elems r = []
        · rw [show U.shows r = .quiet by simp [shows, hr, hb]]
          simpa [openAfter] using ih (is ++ [i]) rs (by simpa [hb] using hholds)
        · rw [show U.shows r = .item r by simp [shows, hb]]
          simpa [endedFrom_item, openAfter, hr] using ih (is ++ [i]) (rs ++ [r]) (by simpa using hholds)

/-- A beat has an element or the end mark. -/
theorem Run.beat_nonnull {e e' : σ} {as : List (Event Instr)} {bs : List (Event R)} (h : U.Run e as bs e') {r : R}
    (hr : .item r ∈ bs) : U.elems r ≠ [] ∨ U.last r = true := by
  induction h with
  | nil => cases hr
  | cons hstep _ ih =>
    rcases List.mem_cons.1 hr with hb | hb
    · cases hstep with
      | quiet | reset => cases hb
      | command =>
        unfold shows at hb
        split at hb
        next hn =>
          cases hb
          simpa using hn
        next => cases hb
    · exact ih hb

/-- A reset is seen only where it is sent. -/
theorem Run.reset_of_reset {e e' : σ} {as : List (Event Instr)} {bs : List (Event R)} (h : U.Run e as bs e')
    (hr : .reset ∈ bs) : .reset ∈ as := by
  induction h with
  | nil => cases hr
  | cons hstep _ ih =>
    rcases List.mem_cons.1 hr with hb | hb
    · cases hstep with
      | quiet => cases hb
      | reset => exact List.mem_cons_self ..
      | command =>
        unfold shows at hb
        split at hb <;> cases hb
    · exact List.mem_cons_of_mem _ (ih hb)

/-- The records of a run without reset in which one message is sent: they are the one answer, of which the last and only it has
the end mark, and the unit is in its reset state afterwards. -/
theorem Run.one_message {e' : σ} {as : List (Event Instr)} {bs : List (Event R)} (h : U.Run U.reset as bs e')
    (hreset : .reset ∉ as) {B : List Byte} (hB : IsMessage ((as.flatMap Event.items).filter notNop) B) :
    ∃ rs r, endedFrom U.last [] bs = [(rs, r)] ∧ bs.flatMap Event.items = rs ++ [r] ∧
      (∀ q ∈ rs, U.last q = false) ∧ U.last r = true ∧ U.gives B ((rs ++ [r]).flatMap U.elems) r ∧ e' = U.reset := by
  obtain ⟨m, hm, hdata, hopenData⟩ := sent_of_isMessage hreset hB
  obtain ⟨hmsgs, hholds⟩ := h.messages [] [] (U.holds_nil.2 ⟨rfl, rfl⟩)
  rw [hopenData] at hholds
  obtain ⟨hopenOut, he'⟩ := U.holds_nil.1 hholds
  rw [hm] at hmsgs
  obtain ⟨⟨rs, r⟩, ns, hgiven, hnil, hbs⟩ := List.forall₂_cons_left_iff.1 hmsgs
  obtain rfl := List.forall₂_nil_left_iff.1 hnil
  have hitems := items_eq_of_no_reset (last := U.last) (fun hb => hreset (h.reset_of_reset hb)) []
  obtain ⟨hlast, hopenLast⟩ := last_of_endedFrom (last := U.last) bs (acc := []) (by simp)
  have hopen : openAfter U.last [] bs = [] := by
    refine List.eq_nil_iff_forall_not_mem.2 fun q hq => ?_
    have hmem : q ∈ bs.flatMap Event.items := by
      rw [List.nil_append] at hitems
      rw [hitems]
      exact List.mem_append_right _ hq
    have hbeat : Event.item q ∈ bs := by
      obtain ⟨b, hb, hqb⟩ := List.mem_flatMap.1 hmem
      cases b <;> simp [Event.items] at hqb
      exact hqb ▸ hb
    rcases h.beat_nonnull hbeat with hne | hl
    · exact hne (by simpa using List.flatMap_eq_nil_iff.1 hopenOut q hq)
    · simp [hopenLast q hq] at hl
  rw [hbs] at hlast
  obtain ⟨hrs, hr⟩ := hlast _ (List.mem_singleton_self _)
  refine ⟨rs, r, hbs, by simpa [hbs, hopen] using hitems, hrs, hr, ?_, he'⟩
  rw [← hdata]
  exact hgiven

end Contract

/-- The end mark stands once and last. -/
theorem endsOnce_append_singleton {R : Type} {last : R → Bool} {rs : List R} {r : R} (hrs : ∀ q ∈ rs, last q = false)
    (hr : last r = true) : endsOnce ((rs ++ [r]).map last) = true := by
  simpa [endsOnce, hr] using hrs

/-- What is known of the state after a run, or before it where it is empty, is known of its last state. -/
theorem getLast_of_getD {α σ : Type} {f : α → σ} {e : σ} {ts : List α} {s : α} (h : f (ts.getLast?.getD s) = e) :
    ∀ t, ts.getLast? = some t → f t = e := fun t ht => by
  rwa [ht, Option.getD_some] at h

/-! The machine's runs are runs of its units -/

section MachineRuns
variable {σ R : Type} {U : Contract σ R} {regs : State → σ}

/-- Commands one after another are a run of the unit, where each command of a kind `ok` is one step of it from each state of a
kind `good`. -/
theorem runCommands_run {ok : Instr → Prop} {good : State → Prop} {seen : State → Event R}
    (hstep : ∀ {i s}, ok i → good s →
      ∃ t, exec i (s.beginCycle Cycle.ready) = .next t ∧ good t ∧ U.Step (regs s) (.item i) (seen t) (regs t))
    {is : List Instr} (his : ∀ i ∈ is, ok i) {s : State} (hs : good s) :
    ∃ ts, runCommands is s = some ts ∧
      U.Run (regs s) (is.map .item) (ts.map seen) (regs (ts.getLast?.getD s)) := by
  induction is generalizing s with
  | nil => exact ⟨[], rfl, .nil _⟩
  | cons i is ih =>
    obtain ⟨hi, his⟩ := List.forall_mem_cons.1 his
    obtain ⟨t, ht, hgood, hone⟩ := hstep hi hs
    obtain ⟨ts, hts, hrun⟩ := ih his hgood
    refine ⟨t :: ts, by rw [runCommands_cons ht, hts, Option.map_some], .cons hone ?_⟩
    rwa [List.getLast?_cons, Option.getD_some]

/-- Clock cycles one after another are a run of the unit, where each cycle is one step of it. -/
theorem runCycles_run {sent : Cycle → Event Instr} {seen : Cycle → State → Event R}
    (htake : ∀ s : State, regs s.takeCycle.2 = regs s)
    (hstep : ∀ {c s t}, clock c s = .next t → U.Step (regs s) (sent c) (seen c t) (regs t))
    {n : Nat} {s : State} {ts : List State} (h : runCycles n s = some ts) :
    U.Run (regs s) ((s.inputs n).map sent) (List.zipWith seen (s.inputs n) ts) (regs (ts.getLast?.getD s)) := by
  induction n generalizing s ts with
  | zero => cases h; exact .nil _
  | succ n ih =>
    obtain ⟨t, us, ht, hus, rfl⟩ := runCycles_succ h
    have hinputs : s.takeCycle.2.inputs n = t.inputs n := State.inputs_congr n (clock_next ht).1.symm
    have hone := hstep ht
    rw [htake] at hone
    rw [State.inputs_succ, hinputs, List.map_cons, List.zipWith_cons_cons, List.getLast?_cons, Option.getD_some]
    exact .cons hone (ih hus)

end MachineRuns

end Sys2Proof.Machine
end

section
/-! The encoder's messages (43_message_contract.md R192; 10_state.md R22; 41_encoder.md R129). -/

namespace Sys2Proof.Machine

/-! The bytes and characters of an unfinished message -/

/-- Whole groups of bytes are encoded by themselves (43_message_contract.md R190). -/
theorem encodeBytes_append {G : List Byte} (hG : G.length % 3 = 0) (T : List Byte) :
    encodeBytes (G ++ T) = encodeBytes G ++ encodeBytes T := by
  induction G using encodeBytes.induct with
  | case1 => rfl
  | case2 => simp at hG
  | case3 => simp at hG
  | case4 b0 b1 b2 G ih =>
    have hG' : G.length % 3 = 0 := by simp at hG; omega
    simp [encodeBytes, ih hG']

/-- The encoder in a message: of the bytes `P` received, the whole groups are encoded in `out` and the rest are held back
(10_state.md R21, R22). -/
def EncHolds (P out : List Byte) (e : EncRegs) : Prop :=
  e.Inv ∧ ∃ G, P = G ++ e.leftover ∧ G.length % 3 = 0 ∧ out = encodeBytes G

theorem EncRegs.Inv.length_leftover {e : EncRegs} (he : e.Inv) : e.leftover.length = e.cnt.toNat := by
  rcases two_bit_cases e.cnt with h | h | h | h
  · simp [leftover, h]
  · simp [leftover, h]
  · simp [leftover, h]
  · exact absurd h he.1

/-- An encoder that holds no byte back is in its reset state (10_state.md R32 point 1). -/
theorem EncRegs.Inv.eq_reset {e : EncRegs} (he : e.Inv) (h : e.leftover = []) : e = EncRegs.reset := by
  have hlen := he.length_leftover
  rw [h] at hlen
  have hcnt : e.cnt = 0 := BitVec.eq_of_toNat_eq hlen.symm
  obtain ⟨hb0, hb1⟩ := he.2.1 hcnt
  cases e
  simp_all [EncRegs.reset]

theorem encHolds_nil {out : List Byte} {e : EncRegs} : EncHolds [] out e ↔ out = [] ∧ e = EncRegs.reset := by
  constructor
  · rintro ⟨he, G, hP, -, rfl⟩
    obtain ⟨rfl, hleft⟩ := List.append_eq_nil_iff.1 hP.symm
    exact ⟨rfl, he.eq_reset hleft⟩
  · rintro ⟨rfl, rfl⟩
    exact ⟨EncRegs.inv_reset, [], rfl, rfl, rfl⟩

/-- What is held back is encoded together with what follows it, after the groups already encoded. -/
theorem EncHolds.encodeBytes_append {P out : List Byte} {e : EncRegs} (h : EncHolds P out e) (T : List Byte) :
    encodeBytes (P ++ T) = out ++ encodeBytes (e.leftover ++ T) := by
  obtain ⟨-, G, rfl, hG, rfl⟩ := h
  rw [List.append_assoc, Machine.encodeBytes_append hG]

/-- `enc.cnt` counts the bytes modulo 3 (10_state.md R22), and the output is that of the whole groups. -/
theorem EncHolds.count {P out : List Byte} {e : EncRegs} (h : EncHolds P out e) :
    e.cnt.toNat = P.length % 3 ∧ out = encodeBytes (P.take (3 * (P.length / 3))) := by
  obtain ⟨he, G, rfl, hG, rfl⟩ := h
  have hlen := he.length_leftover
  have hle := e.length_leftover_le
  have htake : 3 * ((G ++ e.leftover).length / 3) = G.length := by rw [List.length_append]; omega
  exact ⟨by rw [List.length_append]; omega, by rw [htake, List.take_left]⟩

/-! The encoder as a unit -/

/-- The encoder's contract: a message is answered by `encode` of it. -/
def encContract : Contract EncRegs EncRecord where
  reset := EncRegs.reset
  last := EncRecord.last
  elems := EncRecord.chars
  holds := EncHolds
  gives P out _ := out = encodeBytes P
  holds_nil := encHolds_nil

/-- What an encoder command writes and responds with is fixed by the state it leaves. -/
theorem setEnc_respondEnc_inj {s : State} {e e' : EncRegs} {r r' : EncRecord} (hr : r.wellFormed = true)
    (hr' : r'.wellFormed = true) (h : (s.setEnc e).respondEnc r = (s.setEnc e').respondEnc r') : e = e' ∧ r = r' := by
  have hshown := congrArg shownEnc h
  rw [shownEnc_respondEnc _ hr, shownEnc_respondEnc _ hr'] at hshown
  exact ⟨congrArg State.enc h, hshown⟩

/-- Every encoder command does in a message what the contract wants: a push extends what is held, and a command with the end
mark encodes what is held (41_encoder.md R124 to R127). -/
theorem encContract_answers {i : Instr} (hi : i.port = .encCmd) {s : State} {e : EncRegs} {r : EncRecord}
    (hr : r.wellFormed = true) (h : exec i s = .next ((s.setEnc e).respondEnc r)) : encContract.Answers s.enc i e r := by
  intro P out hP
  have hcnt : s.enc.cnt ≠ 3 := hP.1.1
  have hlen : s.enc.leftover.length ≤ 3 := s.enc.length_leftover_le.trans (by decide)
  have heq {e' r'} (hr' : r'.wellFormed = true) (h' : exec i s = .next ((s.setEnc e').respondEnc r')) : e = e' ∧ r = r' :=
    setEnc_respondEnc_inj hr hr' (Host.Outcome.next.inj (h.symm.trans h'))
  cases i with
  | encNop =>
    obtain ⟨rfl, rfl⟩ := heq rfl (exec_encNop s)
    refine ⟨nofun, fun _ => ⟨rfl, ?_⟩⟩
    simpa [encContract, carried] using hP
  | encPush b =>
    obtain ⟨e', cs, hpush, hinv, -, hcases⟩ := exec_encPush_cases b hcnt
    have hwf : (EncRecord.mk cs false).wellFormed = true := by
      obtain ⟨-, rfl⟩ | ⟨-, -, rfl⟩ := hcases <;> rfl
    obtain ⟨rfl, rfl⟩ := heq hwf hpush
    refine ⟨nofun, fun _ => ⟨rfl, hinv hP.1, ?_⟩⟩
    obtain ⟨-, G, rfl, hG, rfl⟩ := hP
    obtain ⟨hleft, rfl⟩ | ⟨rfl, hleft, rfl⟩ := hcases
    · exact ⟨G, by simp [hleft, carried], hG, by simp [encContract]⟩
    · refine ⟨G ++ [s.enc.b0, s.enc.b1, b], by simp [hleft, carried], by simp [hG], ?_⟩
      rw [encodeBytes_append hG]
      simp [encContract, encodeBytes]
  | encFlush =>
    obtain ⟨rfl, rfl⟩ := heq (wellFormed_encodeBytes hlen _) (exec_encFlush hcnt)
    refine ⟨fun _ => ⟨rfl, rfl, ?_⟩, nofun⟩
    simpa [encContract, carried] using (hP.encodeBytes_append []).symm
  | encPushl b =>
    have hlen' : (s.enc.leftover ++ [b]).length ≤ 3 := by simpa using Nat.lt_succ_of_le s.enc.length_leftover_le
    obtain ⟨rfl, rfl⟩ := heq (wellFormed_encodeBytes hlen' _) (exec_encPushl b hcnt)
    refine ⟨fun _ => ⟨rfl, rfl, ?_⟩, nofun⟩
    exact (hP.encodeBytes_append [b]).symm
  | _ => cases hi

/-- A record shown while the host takes it is seen as the contract says. -/
theorem event_encTaken {t : State} {r : EncRecord} (hready : t.pins.encCmdReady = true) (hshows : t.pins.showsEnc r)
    (hr : r.wellFormed = true) : eventOf false (encTaken t) = encContract.shows r := by
  obtain ⟨hvalid, hrsp⟩ := hshows
  have hn : (!r.chars.isEmpty || r.last) = r.nonnull := rfl
  cases h : r.nonnull <;> simp [encTaken, hready, hvalid, hrsp, h, unpackErsp_pack r hr, Contract.shows, encContract, hn]

/-- Nothing is taken where the host is not ready or nothing is valid. -/
theorem encTaken_eq_none {t : State} (h : t.pins.encCmdReady = false ∨ t.pins.encRspValid = false) : encTaken t = none := by
  rcases h with h | h <;> simp [encTaken, h]

/-! Runs of commands -/

/-- A command of the encoder, or `DEC.NOP`, in a cycle of its own. -/
theorem encStep_of_exec {i : Instr} {s : State} (hi : i.port = .encCmd ∨ i = .decNop) (hs : s.enc.Inv) :
    ∃ t, exec i (s.beginCycle Cycle.ready) = .next t ∧ t.enc.Inv ∧
      encContract.Step s.enc (.item i) (encEvent Cycle.ready t) t.enc := by
  rcases hi with hi | rfl
  · rcases exec_encCmd i hi s.enc with ⟨h3, -⟩ | ⟨e, r, hr, hexec⟩
    · exact absurd h3 hs.1
    · have ht := hexec (s.beginCycle Cycle.ready) rfl
      refine ⟨_, ht, exec_encCmd_inv hi (s := s.beginCycle Cycle.ready) hs ht, ?_⟩
      rw [encEvent, show Cycle.ready.rst = false from rfl, event_encTaken rfl ⟨rfl, rfl⟩ hr]
      exact .command (encContract_answers (s := s.beginCycle Cycle.ready) hi hr ht)
  · refine ⟨_, exec_decNop _, hs, ?_⟩
    have hans : encContract.Answers s.enc .decNop s.enc ⟨[], false⟩ := fun P out hP =>
      ⟨nofun, fun _ => ⟨rfl, by simpa [encContract, carried] using hP⟩⟩
    exact .command hans

/-- Encoder commands and `DEC.NOP`s are a run of the encoder. -/
theorem runCommands_encRun {is : List Instr} (his : ∀ i ∈ is, i.port = .encCmd ∨ i = .decNop) {s : State} (hs : s.enc.Inv) :
    ∃ ts, runCommands is s = some ts ∧
      encContract.Run s.enc (is.map .item) (ts.map (encEvent Cycle.ready)) (ts.getLast?.getD s).enc :=
  runCommands_run (regs := State.enc) (good := fun s => s.enc.Inv) encStep_of_exec his hs

/-- The beats of a run of commands are the items of its cycles. -/
theorem items_encEvent (ts : List State) : (ts.map (encEvent Cycle.ready)).flatMap Event.items = encBeats ts := by
  rw [List.flatMap_map, encBeats, List.filterMap_eq_flatMap_toList]
  exact List.flatMap_congr fun t _ => items_eventOf _

/-- The padding character stands in no encoding of whole groups (41_encoder.md R129). -/
theorem PAD_not_mem_encodeBytes {B : List Byte} (hB : B.length % 3 = 0) : PAD ∉ encodeBytes B := by
  obtain ⟨-, -, X, -, -, -, hcount⟩ := encodeLengthAndPadding B
  rw [hB] at hcount
  exact List.count_eq_zero.1 hcount

/-- Settles O22: the pushes are a run in which no message ends, and the registers and the output are those of an unfinished
message (`EncHolds.count`). -/
theorem countIsPushesModuloThree : Obligations.CountIsPushesModuloThree := by
  intro B s hs
  have hreset : s.enc = EncRegs.reset := hs
  obtain ⟨ts, hts, hrun⟩ := runCommands_encRun (is := B.map .encPush) (by simp [Instr.port]) (s := s)
    (hreset ▸ EncRegs.inv_reset)
  rw [hreset] at hrun
  obtain ⟨hended, hopen⟩ := endedFrom_of_no_end (is := B.map .encPush) (by simp [endsMessage]) []
  obtain ⟨hmsgs, hholds⟩ := hrun.messages [] [] (encHolds_nil.2 ⟨rfl, rfl⟩)
  rw [hended] at hmsgs
  have hbeats := items_eq_of_no_reset (last := encContract.last) (fun hb => by simpa using hrun.reset_of_reset hb) []
  rw [List.forall₂_nil_left_iff.1 hmsgs, items_encEvent] at hbeats
  have hcount : EncHolds B (encEmitted ts) (ts.getLast?.getD s).enc := by
    have hdata : (B.map Instr.encPush).flatMap carried = B := by simp [List.flatMap_map, carried]
    have hout : encBeats ts = openAfter encContract.last [] (ts.map (encEvent Cycle.ready)) := by simpa using hbeats
    rw [hopen, List.nil_append, hdata, ← hout] at hholds
    exact hholds
  obtain ⟨-, hemitted⟩ := hcount.count
  refine ⟨ts, hts, fun t ht => ?_, ?_, hemitted⟩
  · rw [ht, Option.getD_some] at hcount
    exact hcount.count.1
  · rw [hemitted]
    exact PAD_not_mem_encodeBytes (by rw [List.length_take]; omega)

/-- Both forms of an encoder message are messages of encoder commands. -/
theorem encMessage_of_filter {is : List Instr} {B : List Byte}
    (h : is = encMsg B ∨ ∃ B' x, B = B' ++ [x] ∧ is = encMsgl B' x) : IsMessage is B ∧ ∀ i ∈ is, i.port = .encCmd := by
  obtain rfl | ⟨B', x, rfl, rfl⟩ := h
  · exact ⟨isMessage_encMsg B, by simp [encMsg, or_imp, forall_and, Instr.port]⟩
  · exact ⟨isMessage_encMsgl B' x, by simp [encMsgl, or_imp, forall_and, Instr.port]⟩

/-- Where the commands but the `NOP`s are the encoder's, so are all but the decoder's `NOP`. -/
theorem encPort_of_filter {is : List Instr} (h : ∀ i ∈ is.filter notNop, i.port = .encCmd) :
    ∀ i ∈ is, i.port = .encCmd ∨ i = .decNop := by
  intro i hi
  cases hn : notNop i with
  | true => exact .inl (h i (List.mem_filter.2 ⟨hi, hn⟩))
  | false => obtain rfl | rfl := notNop_eq_false.1 hn <;> simp [Instr.port]

/-- A run of the encoder without reset in which the message `B` is sent: one message ends, its output and all the characters
emitted are `encode(B)`, and the end mark stands once and last. -/
theorem encMessage_of_run {as : List (Event Instr)} {bs : List (Event EncRecord)} {e : EncRegs}
    (h : encContract.Run EncRegs.reset as bs e) (hreset : .reset ∉ as) {B : List Byte}
    (hB : IsMessage ((as.flatMap Event.items).filter notNop) B) :
    encMessages bs = [encodeBytes B] ∧ (bs.flatMap Event.items).flatMap (·.chars) = encodeBytes B ∧
      endsOnce ((bs.flatMap Event.items).map (·.last)) = true ∧ e = EncRegs.reset := by
  obtain ⟨rs, r, hended, hitems, hrs, hr, hgives, hend⟩ := h.one_message hreset hB
  rw [hitems]
  refine ⟨?_, hgives, endsOnce_append_singleton hrs hr, hend⟩
  rw [encMessages]
  exact (congrArg _ hended).trans (congrArg (fun o => [o]) hgives)

/-- Settles O49: the commands but the `NOP`s are one message (`encMessage_of_run`). -/
theorem encoderStreamGivesEncode : Obligations.EncoderStreamGivesEncode := by
  intro is B s hs hmsg
  have hreset : s.enc = EncRegs.reset := hs
  obtain ⟨hB, hport⟩ := encMessage_of_filter hmsg
  obtain ⟨ts, hts, hrun⟩ := runCommands_encRun (encPort_of_filter hport) (hreset ▸ EncRegs.inv_reset)
  rw [hreset] at hrun
  obtain ⟨hmessages, hchars, hends, hend⟩ := encMessage_of_run hrun (by simp) (by rwa [flatMap_items_map_item])
  rw [items_encEvent] at hchars hends
  exact ⟨ts, hts, hmessages, hchars, hends, getLast_of_getD hend⟩

end Sys2Proof.Machine
end

section
/-! The registers of the decoder in a message are what `decode` makes of the characters so far (42_decoder.md R153, R159;
43_message_contract.md R191). -/

namespace Sys2Proof.Machine

/-! The violations of a string and of its beginnings -/

/-- The string holds padding. -/
def hasPad (S : List Byte) : Bool := S.any fun c => (C2S c).1 == .pad

theorem padBefore_eq (S : List Byte) (k : Nat) : padBefore S k = hasPad (S.take k) := rfl

theorem padBefore_append {S : List Byte} {k : Nat} (hk : k ≤ S.length) (T : List Byte) :
    padBefore (S ++ T) k = padBefore S k := by
  rw [padBefore_eq, padBefore_eq, List.take_append_of_le_length hk]

/-- Whether an index is a violation is fixed by the characters up to it. -/
theorem violationAt_append {S : List Byte} {i : Nat} (hi : i < S.length) (T : List Byte) :
    violationAt (S ++ T) i = violationAt S i := by
  have hget : (S ++ T).getD i 0 = S.getD i 0 := List.getD_append _ _ _ _ hi
  have hgroup : 4 * (i / 4) ≤ S.length := by omega
  rw [violationAt, violationAt, hget, padBefore_append hi.le, padBefore_append hgroup]

theorem violationAt_take {S : List Byte} {i n : Nat} (hi : i < n) (hn : n ≤ S.length) :
    violationAt (S.take n) i = violationAt S i := by
  have h := violationAt_append (S := S.take n) (i := i) (by simpa using ⟨hi, hi.trans_le hn⟩) (S.drop n)
  rw [List.take_append_drop] at h
  exact h.symm

/-- The first hit of a search over the first numbers. -/
theorem findSome?_range_of_first {α : Type} {f : Nat → Option α} {a : α} {n m : Nat} (hm : m < n) (ha : f m = some a)
    (hfirst : ∀ j < m, f j = none) : (List.range n).findSome? f = some a := by
  induction n with
  | zero => omega
  | succ n ih =>
    rw [List.range_succ, List.findSome?_append]
    by_cases h : m < n
    · rw [ih h, Option.some_or]
    · obtain rfl : m = n := by omega
      have hnone : (List.range m).findSome? f = none := by simpa using hfirst
      simp [hnone, ha]

/-- The first violation is the one with none before it. -/
theorem firstViolation_eq_some {S : List Byte} {m : Nat} {k : Code} :
    firstViolation S = some (m, k) ↔ m < S.length ∧ violationAt S m = some k ∧ ∀ j < m, violationAt S j = none := by
  have hfirst {m k} (hm : m < S.length) (hk : violationAt S m = some k) (hj : ∀ j < m, violationAt S j = none) :
      firstViolation S = some (m, k) :=
    findSome?_range_of_first hm (by simp [hk]) fun j h => by simp [hj j h]
  refine ⟨fun h => ?_, fun ⟨hm, hk, hj⟩ => hfirst hm hk hj⟩
  have hex : ∃ i, i < S.length ∧ violationAt S i ≠ none := by
    by_contra hno
    rw [firstViolation_eq_none.2 (by simpa using hno)] at h
    cases h
  classical
  obtain ⟨hlt, hne⟩ := Nat.find_spec hex
  obtain ⟨k', hk'⟩ := Option.ne_none_iff_exists'.1 hne
  have hbefore : ∀ j < Nat.find hex, violationAt S j = none := fun j hj => by
    by_contra hv
    exact Nat.find_min hex hj ⟨hj.trans hlt, hv⟩
  obtain ⟨rfl, rfl⟩ := Prod.mk.inj (Option.some.inj ((hfirst hlt hk' hbefore).symm.trans h))
  exact ⟨hlt, hk', hbefore⟩

/-- A string has no violation before an index exactly where its beginning has none. -/
theorem firstViolation_take {S : List Byte} {n : Nat} (hn : n ≤ S.length) (h : ∀ i < n, violationAt S i = none) :
    firstViolation (S.take n) = none := by
  refine firstViolation_eq_none.2 fun i hi => ?_
  have hi : i < n := by simp at hi; omega
  rw [violationAt_take hi hn, h i hi]

/-! Whole groups -/

theorem groupBytes_append {G : List Byte} (hG : G.length % 4 = 0) (T : List Byte) :
    groupBytes (G ++ T) = groupBytes G ++ groupBytes T := by
  induction G using groupBytes.induct with
  | case1 c0 c1 c2 c3 G ih =>
    have hG' : G.length % 4 = 0 := by simp at hG; omega
    simp [groupBytes, ih hG']
  | case2 G hshort =>
    rcases G with _ | ⟨c0, _ | ⟨c1, _ | ⟨c2, _ | ⟨c3, G⟩⟩⟩⟩
    case nil => simp [groupBytes]
    case cons.cons.cons.cons => exact (hshort _ _ _ _ _ rfl).elim
    all_goals simp at hG

/-- The whole groups of a string whose last group is unfinished. -/
theorem take_groups {G T : List Byte} (hG : G.length % 4 = 0) (hT : T.length < 4) :
    (G ++ T).take (4 * ((G ++ T).length / 4)) = G := by
  have h : 4 * ((G ++ T).length / 4) = G.length := by rw [List.length_append]; omega
  rw [h, List.take_left]

/-! A message without a violation -/

/-- The strings without a violation, the bytes of their whole groups and the registers they leave: one case per abstract state
of 42_decoder.md R159. `G` is the whole groups. -/
inductive Clean : List Byte → List Byte → DecRegs → Prop where
  | G0 {G : List Byte} (hG : G.length % 4 = 0) (hp : hasPad G = false) :
      Clean G (groupBytes G) ⟨0, 0, 0, 0, false, false, .ok⟩
  | G1 {G : List Byte} (hG : G.length % 4 = 0) (hp : hasPad G = false) (v0 : Sym) :
      Clean (G ++ [S2C v0]) (groupBytes G) ⟨1, v0, 0, 0, false, false, .ok⟩
  | G2 {G : List Byte} (hG : G.length % 4 = 0) (hp : hasPad G = false) (v0 v1 : Sym) :
      Clean (G ++ [S2C v0, S2C v1]) (groupBytes G) ⟨2, v0, v1, 0, false, false, .ok⟩
  | G3 {G : List Byte} (hG : G.length % 4 = 0) (hp : hasPad G = false) (v0 v1 v2 : Sym) :
      Clean (G ++ [S2C v0, S2C v1, S2C v2]) (groupBytes G) ⟨3, v0, v1, v2, false, false, .ok⟩
  | P3 {G : List Byte} (hG : G.length % 4 = 0) (hp : hasPad G = false) (v0 v1 : Sym) :
      Clean (G ++ [S2C v0, S2C v1, PAD]) (groupBytes G) ⟨3, v0, v1, 0, true, false, .ok⟩
  | C0 {G : List Byte} (hG : G.length % 4 = 0) (hp : hasPad G = true) :
      Clean G (groupBytes G) ⟨0, 0, 0, 0, false, true, .ok⟩

namespace Clean

variable {S out : List Byte} {d : DecRegs}

theorem err (h : Clean S out d) : d.err = .ok := by
  cases h <;> rfl

theorem pos (h : Clean S out d) : d.pos.toNat = S.length % 4 := by
  cases h <;> simp <;> omega

theorem out_eq (h : Clean S out d) : out = groupBytes (S.take (4 * (S.length / 4))) := by
  cases h with
  | G0 hG | C0 hG => simpa using congrArg groupBytes (take_groups hG (T := []) (by simp)).symm
  | G1 hG | G2 hG | G3 hG | P3 hG => rw [take_groups hG (by simp)]

/-- The flags say whether padding stands before the unfinished group, and whether it stands in the string. -/
theorem flags (h : Clean S out d) : padBefore S (4 * (S.length / 4)) = d.closed ∧ hasPad S = d.afterPadding := by
  rw [padBefore_eq]
  cases h with
  | G0 hG hp | C0 hG hp =>
    have hS := take_groups hG (T := []) (by simp)
    rw [List.append_nil] at hS
    exact ⟨by rw [hS, hp], hp⟩
  | G1 hG hp | G2 hG hp | G3 hG hp | P3 hG hp =>
    rw [take_groups hG (by simp), hp]
    simp only [hasPad] at hp
    simp [hasPad, hp, DecRegs.afterPadding, C2S_S2C, C2S_PAD]

/-- The next character is a violation exactly where the character step finds one (60_exceptions.md R222, R223). -/
theorem violationAt_next (h : Clean S out d) (c : Byte) :
    violationAt (S ++ [c]) S.length =
      if (C2S c).1 = .inv then some .invalidSymbol
      else if PaddingFault d (C2S c).1 then some .malformedPadding else none := by
  obtain ⟨hclosed, hpad⟩ := h.flags
  have hget : (S ++ [c]).getD S.length 0 = c := by simp
  have hbefore : padBefore (S ++ [c]) S.length = d.afterPadding := by
    rw [padBefore_append le_rfl, padBefore_eq, List.take_length, hpad]
  have hgroup : padBefore (S ++ [c]) (4 * (S.length / 4)) = d.closed := by
    rw [padBefore_append (by omega), hclosed]
  have hmisplaced : (S.length % 4 < 2 || d.closed) = d.padMisplaced := by
    rw [← h.pos, DecRegs.padMisplaced, Bool.or_comm]
    rfl
  rw [violationAt, hget, hbefore, hgroup, hmisplaced]
  simp only [paddingFault_iff]
  cases (C2S c).1 <;> simp

/-- A group of four characters completes the string to whole groups, closed if it holds padding. -/
theorem complete {G T : List Byte} (hG : G.length % 4 = 0) (hp : hasPad G = false) (hT : T.length = 4) (closed : Bool)
    (hc : hasPad T = closed) : Clean (G ++ T) (groupBytes G ++ groupBytes T) ⟨0, 0, 0, 0, false, closed, .ok⟩ := by
  have hlen : (G ++ T).length % 4 = 0 := by rw [List.length_append]; omega
  have hpad : hasPad (G ++ T) = closed := by
    rw [hasPad, List.any_append]
    exact (congrArg₂ or hp hc).trans (Bool.false_or _)
  rw [← groupBytes_append hG]
  cases closed
  · exact .G0 hlen hpad
  · exact .C0 hlen hpad

/-- A character that is no violation extends the string. -/
theorem next (h : Clean S out d) {c : Byte} (hk : (C2S c).1 ≠ .inv) (hf : ¬ PaddingFault d (C2S c).1) :
    Clean (S ++ [c]) (out ++ (d.char c).2) (d.char c).1 := by
  have hc : (∃ v, c = S2C v) ∨ c = PAD := by
    cases hk' : (C2S c).1 with
    | inv => exact absurd hk' hk
    | sym => exact .inl ⟨_, (S2C_C2S_of_sym hk').symm⟩
    | pad => exact .inr (eq_PAD_of_pad hk')
  obtain ⟨v, rfl⟩ | rfl := hc
  · have hv : (C2S (S2C v)).1 = .sym := by rw [C2S_S2C]
    have hv' : (C2S (S2C v)).2 = v := by rw [C2S_S2C]
    rw [hv] at hf
    cases h with
    | G0 hG hp =>
      rw [DecRegs.char_of_sym rfl hv rfl rfl, DecRegs.acceptSym_at_zero _ rfl, hv', List.append_nil]
      exact .G1 hG hp v
    | G1 hG hp v0 =>
      rw [DecRegs.char_of_sym rfl hv rfl rfl, DecRegs.acceptSym_at_one _ rfl, hv', List.append_nil, List.append_assoc]
      exact .G2 hG hp v0 v
    | G2 hG hp v0 v1 =>
      rw [DecRegs.char_of_sym rfl hv rfl rfl, DecRegs.acceptSym_at_two _ rfl, hv', List.append_nil, List.append_assoc]
      exact .G3 hG hp v0 v1 v
    | G3 hG hp v0 v1 v2 =>
      rw [DecRegs.char_of_sym rfl hv rfl rfl, DecRegs.acceptSym_at_three _ rfl, hv', List.append_assoc]
      simpa [groupBytes, C2S_S2C] using
        complete (T := [S2C v0, S2C v1, S2C v2, S2C v]) hG hp rfl false (by simp [hasPad, C2S_S2C])
    | P3 | C0 => simp [PaddingFault] at hf
  · have hv : (C2S PAD).1 = .pad := by rw [C2S_PAD]
    rw [hv] at hf
    cases h with
    | G2 hG hp v0 v1 =>
      rw [DecRegs.char_of_pad rfl hv rfl (.inl rfl), DecRegs.acceptPad_at_two rfl, List.append_nil, List.append_assoc]
      exact .P3 hG hp v0 v1
    | G3 hG hp v0 v1 v2 =>
      rw [DecRegs.char_of_pad rfl hv rfl (.inr rfl), DecRegs.acceptPad_at_three rfl, List.append_assoc]
      simpa [groupBytes, C2S_S2C, C2S_PAD] using
        complete (T := [S2C v0, S2C v1, S2C v2, PAD]) hG hp rfl true (by simp [hasPad, C2S_PAD])
    | P3 hG hp v0 v1 =>
      rw [DecRegs.char_of_pad rfl hv rfl (.inr rfl), DecRegs.acceptPad_at_three rfl, List.append_assoc]
      simpa [groupBytes, C2S_S2C, C2S_PAD] using
        complete (T := [S2C v0, S2C v1, PAD, PAD]) hG hp rfl true (by simp [hasPad, C2S_PAD])
    | G0 | G1 | C0 => simp [PaddingFault] at hf

end Clean

/-! A message with or without a violation -/

/-- The decoder in a message: with no violation among the characters `S` so far its registers are `Clean`'s; otherwise the
first violation is latched, the characters are counted on, and the output is that of the whole groups before it. -/
inductive DecHolds (S out : List Byte) (d : DecRegs) : Prop where
  | clean (h : Clean S out d) (hv : firstViolation S = none)
  | faulty {m : Nat} {k : Code} (hv : firstViolation S = some (m, k)) (he : d.err = k) (hpos : d.pos.toNat = S.length % 4)
      (hout : out = groupBytes (S.take (4 * (m / 4))))

theorem decHolds_nil {out : List Byte} {d : DecRegs} : DecHolds [] out d ↔ out = [] ∧ d = DecRegs.reset := by
  constructor
  · rintro (⟨h, -⟩ | ⟨hv, -⟩)
    · generalize hS : ([] : List Byte) = S at h
      cases h with
      | G0 => subst hS; exact ⟨rfl, rfl⟩
      | C0 hG hp => subst hS; cases hp
      | _ => simp at hS
    · cases hv
  · rintro ⟨rfl, rfl⟩
    exact .clean (.G0 rfl rfl) rfl

theorem violationAt_ne_ok (S : List Byte) (i : Nat) : violationAt S i ≠ some .ok := by
  unfold violationAt
  cases (C2S (S.getD i 0)).1 with
  | inv => simp
  | sym => dsimp only; split_ifs <;> simp
  | pad => dsimp only; split_ifs <;> simp

namespace DecHolds

variable {S out : List Byte} {d : DecRegs}

theorem pos (h : DecHolds S out d) : d.pos.toNat = S.length % 4 := by
  cases h with
  | clean h => exact h.pos
  | faulty _ _ hpos => exact hpos

/-- A latched error is the first violation of the string (60_exceptions.md R226). -/
theorem err (h : DecHolds S out d) : d.err = ((firstViolation S).map Prod.snd).getD .ok := by
  cases h with
  | clean h hv => simp [hv, h.err]
  | faulty hv he => simp [hv, he]

/-- The character step extends the string. -/
theorem next (h : DecHolds S out d) (c : Byte) : DecHolds (S ++ [c]) (out ++ (d.char c).2) (d.char c).1 := by
  have hpos : (d.char c).1.pos.toNat = (S ++ [c]).length % 4 := by
    rw [DecRegs.char_pos, BitVec.toNat_add, h.pos]
    simp
  cases h with
  | clean h hv =>
    have hbefore : ∀ j < S.length, violationAt (S ++ [c]) j = none := fun j hj => by
      rw [violationAt_append hj, firstViolation_eq_none.1 hv j hj]
    have hout : out = groupBytes ((S ++ [c]).take (4 * (S.length / 4))) := by
      rw [List.take_append_of_le_length (by omega)]
      exact h.out_eq
    have hraise {k : Code} (hk : violationAt (S ++ [c]) S.length = some k)
        (hchar : d.char c = (d.advance.raise k, [])) : DecHolds (S ++ [c]) (out ++ (d.char c).2) (d.char c).1 := by
      refine .faulty (firstViolation_eq_some.2 ⟨by simp, hk, hbefore⟩) (by rw [hchar]; rfl) hpos ?_
      rw [hchar, List.append_nil]
      exact hout
    have hnext := h.violationAt_next c
    rcases d.char_cases_of_no_err (c := c) h.err with ⟨hk, hchar⟩ | ⟨hf, hchar⟩ | ⟨hk, hf, -⟩
    · exact hraise (by rw [hnext, if_pos hk]) hchar
    · have hk : (C2S c).1 ≠ .inv := fun hk => by simp [hk, PaddingFault] at hf
      exact hraise (by rw [hnext, if_neg hk, if_pos hf]) hchar
    · refine .clean (h.next hk hf) (firstViolation_eq_none.2 fun i hi => ?_)
      obtain hi | rfl := Nat.lt_succ_iff_lt_or_eq.1 (by simpa using hi)
      · exact hbefore i hi
      · rw [hnext, if_neg hk, if_neg hf]
  | @faulty m k hv he _ hout =>
    obtain ⟨hm, hk, hbefore⟩ := firstViolation_eq_some.1 hv
    have hne : d.err ≠ .ok := fun hok => violationAt_ne_ok S _ (by rw [hk, ← he, hok])
    have hv' : firstViolation (S ++ [c]) = some (m, k) := firstViolation_eq_some.2
      ⟨by simp; omega, by rw [violationAt_append hm, hk], fun j hj => by
        rw [violationAt_append (hj.trans hm), hbefore j hj]⟩
    rw [DecRegs.char_of_err hne] at hpos ⊢
    refine .faulty hv' he hpos ?_
    rw [List.append_nil, List.take_append_of_le_length (by omega)]
    exact hout

/-- The status of a message that ends is the result of `decode` (60_exceptions.md R226). -/
theorem endStatus (h : DecHolds S out d) : d.endStatus = statusOf (decodeText S) := by
  have hpos : d.pos = 0 ↔ S.length % 4 = 0 := by
    rw [← h.pos, BitVec.toNat_eq]
    rfl
  unfold DecRegs.endStatus decodeText
  rw [h.err]
  by_cases hlen : S.length % 4 = 0
  · rw [if_pos (hpos.2 hlen), if_neg (not_not.2 hlen)]
    cases firstViolation S <;> rfl
  · rw [if_neg (mt hpos.1 hlen), if_pos hlen]
    rfl

/-- The output is that of the whole groups before the first violation (43_message_contract.md R193). -/
theorem decodeText_wholeGroups (h : DecHolds S out d) : decodeText (wholeGroups S) = .ok out := by
  unfold wholeGroups
  cases h with
  | clean h hv =>
    rw [hv, decodeText_eq_ok]
    refine ⟨by rw [List.length_take]; omega, firstViolation_take (by omega) fun i hi => ?_, h.out_eq.symm⟩
    exact firstViolation_eq_none.1 hv i (by omega)
  | faulty hv _ _ hout =>
    obtain ⟨hm, -, hbefore⟩ := firstViolation_eq_some.1 hv
    rw [hv, decodeText_eq_ok]
    exact ⟨by rw [List.length_take]; omega, firstViolation_take (by omega) fun i hi => hbefore i (by omega), hout.symm⟩

end DecHolds

end Sys2Proof.Machine
end

section
/-! The decoder's messages (43_message_contract.md R193; 60_exceptions.md R226) and the source's vectors (R198, R199). -/

namespace Sys2Proof.Machine

/-! The decoder as a unit -/

/-- The decoder's contract: a message is answered by the status of `decode` and the bytes of the whole groups before the first
violation. -/
def decContract : Contract DecRegs DecRecord where
  reset := DecRegs.reset
  last := DecRecord.last
  elems := DecRecord.bytes
  holds := DecHolds
  gives S out r := r.status = statusOf (decodeText S) ∧ decodeText (wholeGroups S) = .ok out
  holds_nil := decHolds_nil

/-- What a decoder command writes and responds with is fixed by the state it leaves. -/
theorem setDec_respondDec_inj {s : State} {d d' : DecRegs} {q q' : DecRecord} (hq : q.wellFormed = true)
    (hq' : q'.wellFormed = true) (h : (s.setDec d).respondDec q = (s.setDec d').respondDec q') : d = d' ∧ q = q' := by
  have hshown := congrArg shownDec h
  rw [shownDec_respondDec _ hq, shownDec_respondDec _ hq'] at hshown
  exact ⟨congrArg State.dec h, hshown⟩

/-- Every decoder command does in a message what the contract wants: a character extends it, and the end mark gives the status
of `decode` (42_decoder.md R154 to R157). -/
theorem decContract_answers {i : Instr} (hi : i.port = .decCmd) {s : State} {d : DecRegs} {q : DecRecord}
    (hq : q.wellFormed = true) (h : exec i s = .next ((s.setDec d).respondDec q)) : decContract.Answers s.dec i d q := by
  intro S out hS
  have heq {d' q'} (hq' : q'.wellFormed = true) (h' : exec i s = .next ((s.setDec d').respondDec q')) : d = d' ∧ q = q' :=
    setDec_respondDec_inj hq hq' (Host.Outcome.next.inj (h.symm.trans h'))
  cases i with
  | decNop =>
    obtain ⟨rfl, rfl⟩ := heq rfl (exec_decNop s)
    refine ⟨nofun, fun _ => ⟨rfl, ?_⟩⟩
    simpa [decContract, carried] using hS
  | decPush c =>
    obtain ⟨rfl, rfl⟩ := heq (s.dec.wellFormed_char c) (exec_decPush c s)
    exact ⟨nofun, fun _ => ⟨rfl, hS.next c⟩⟩
  | decEnd =>
    obtain ⟨rfl, rfl⟩ := heq (by simp [DecRecord.wellFormed]) (exec_decEnd s)
    refine ⟨fun _ => ⟨rfl, rfl, ?_⟩, nofun⟩
    simpa [decContract, carried] using And.intro hS.endStatus hS.decodeText_wholeGroups
  | decPushl c =>
    obtain ⟨rfl, rfl⟩ := heq (s.dec.wellFormed_char_end c) (exec_decPushl c s)
    have hnext := DecHolds.next hS c
    exact ⟨fun _ => ⟨rfl, rfl, hnext.endStatus, hnext.decodeText_wholeGroups⟩, nofun⟩
  | _ => cases hi

/-- A record shown while the host takes it is seen as the contract says. -/
theorem event_decTaken {t : State} {q : DecRecord} (hready : t.pins.decCmdReady = true) (hshows : t.pins.showsDec q)
    (hq : q.wellFormed = true) : eventOf false (decTaken t) = decContract.shows q := by
  obtain ⟨hvalid, hrsp⟩ := hshows
  have hn : (!q.bytes.isEmpty || q.last) = q.nonnull := rfl
  cases h : q.nonnull <;> simp [decTaken, hready, hvalid, hrsp, h, unpackDrsp_pack q hq, Contract.shows, decContract, hn]

/-- Nothing is taken where the host is not ready or nothing is valid. -/
theorem decTaken_eq_none {t : State} (h : t.pins.decCmdReady = false ∨ t.pins.decRspValid = false) : decTaken t = none := by
  rcases h with h | h <;> simp [decTaken, h]

/-! Runs of commands -/

/-- A command of the decoder, or `ENC.NOP`, in a cycle of its own. -/
theorem decStep_of_exec {i : Instr} {s : State} (hi : i.port = .decCmd ∨ i = .encNop) :
    ∃ t, exec i (s.beginCycle Cycle.ready) = .next t ∧
      decContract.Step s.dec (.item i) (decEvent Cycle.ready t) t.dec := by
  rcases hi with hi | rfl
  · obtain ⟨d, q, hq, hexec⟩ := exec_decCmd i hi s.dec
    have ht := hexec (s.beginCycle Cycle.ready) rfl
    refine ⟨_, ht, ?_⟩
    rw [decEvent, show Cycle.ready.rst = false from rfl, event_decTaken rfl ⟨rfl, rfl⟩ hq]
    exact .command (decContract_answers (s := s.beginCycle Cycle.ready) hi hq ht)
  · have hans : decContract.Answers s.dec .encNop s.dec ⟨[], false, .ok⟩ := fun S out hS =>
      ⟨nofun, fun _ => ⟨rfl, by simpa [decContract, carried] using hS⟩⟩
    exact ⟨_, exec_encNop _, .command hans⟩

/-- Decoder commands and `ENC.NOP`s are a run of the decoder. -/
theorem runCommands_decRun {is : List Instr} (his : ∀ i ∈ is, i.port = .decCmd ∨ i = .encNop) (s : State) :
    ∃ ts, runCommands is s = some ts ∧
      decContract.Run s.dec (is.map .item) (ts.map (decEvent Cycle.ready)) (ts.getLast?.getD s).dec :=
  runCommands_run (regs := State.dec) (good := fun _ => True)
    (fun hi _ => (decStep_of_exec hi).imp fun _ h => ⟨h.1, trivial, h.2⟩) his trivial

/-- The beats of a run of commands are the items of its cycles. -/
theorem items_decEvent (ts : List State) : (ts.map (decEvent Cycle.ready)).flatMap Event.items = decBeats ts := by
  rw [List.flatMap_map, decBeats, List.filterMap_eq_flatMap_toList]
  exact List.flatMap_congr fun t _ => items_eventOf _

/-- Both forms of a decoder message are messages of decoder commands. -/
theorem decMessage_of_filter {is : List Instr} {S : List Byte}
    (h : is = decMsg S ∨ ∃ S' x, S = S' ++ [x] ∧ is = decMsgl S' x) : IsMessage is S ∧ ∀ i ∈ is, i.port = .decCmd := by
  obtain rfl | ⟨S', x, rfl, rfl⟩ := h
  · exact ⟨isMessage_decMsg S, by simp [decMsg, or_imp, forall_and, Instr.port]⟩
  · exact ⟨isMessage_decMsgl S' x, by simp [decMsgl, or_imp, forall_and, Instr.port]⟩

/-- Where the commands but the `NOP`s are the decoder's, so are all but the encoder's `NOP`. -/
theorem decPort_of_filter {is : List Instr} (h : ∀ i ∈ is.filter notNop, i.port = .decCmd) :
    ∀ i ∈ is, i.port = .decCmd ∨ i = .encNop := by
  intro i hi
  cases hn : notNop i with
  | true => exact .inl (h i (List.mem_filter.2 ⟨hi, hn⟩))
  | false => obtain rfl | rfl := notNop_eq_false.1 hn <;> simp [Instr.port]

/-- Where `decode` succeeds all groups are whole, so the output is its result. -/
theorem output_of_decodeText {S out B : List Byte} (hout : decodeText (wholeGroups S) = .ok out)
    (hB : decodeText S = .ok B) : out = B := by
  obtain ⟨hlen, hviol, -⟩ := decodeText_eq_ok.1 hB
  have hall : 4 * (S.length / 4) = S.length := by omega
  rw [wholeGroups, hviol] at hout
  simp only [hall, List.take_length] at hout
  exact Except.ok.inj (hout.symm.trans hB)

/-- A run of the decoder without reset in which the message `S` is sent: one message ends, its verdict is that of `decode(S)`,
its output that of the whole groups before the first violation, and the end mark stands once and last. -/
theorem decMessage_of_run {as : List (Event Instr)} {bs : List (Event DecRecord)} {d : DecRegs}
    (h : decContract.Run DecRegs.reset as bs d) (hreset : .reset ∉ as) {S : List Byte}
    (hS : IsMessage ((as.flatMap Event.items).filter notNop) S) :
    ∃ out, endsOnce ((bs.flatMap Event.items).map (·.last)) = true ∧
      decMessages bs = [{ output := out, verdict := statusOf (decodeText S) }] ∧
      decodeText (wholeGroups S) = .ok out ∧ d = DecRegs.reset := by
  obtain ⟨rs, r, hended, hitems, hrs, hr, ⟨hstatus, hout⟩, hend⟩ := h.one_message hreset hS
  refine ⟨_, by rw [hitems]; exact endsOnce_append_singleton hrs hr, ?_, hout, hend⟩
  rw [decMessages, ← hstatus]
  exact congrArg _ hended

/-- Settles O50: the commands but the `NOP`s are one message (`decMessage_of_run`). -/
theorem decoderStreamGivesDecode : Obligations.DecoderStreamGivesDecode := by
  intro is S s hs hmsg
  have hreset : s.dec = DecRegs.reset := hs
  obtain ⟨hS, hport⟩ := decMessage_of_filter hmsg
  obtain ⟨ts, hts, hrun⟩ := runCommands_decRun (decPort_of_filter hport) s
  rw [hreset] at hrun
  obtain ⟨out, hends, hmessages, hout, hend⟩ := decMessage_of_run hrun (by simp) (by rwa [flatMap_items_map_item])
  rw [items_decEvent] at hends
  exact ⟨ts, out, hts, hends, hmessages, hout, fun _ => output_of_decodeText hout, getLast_of_getD hend⟩

/-! Which fault is reported -/

theorem violationAt_of_inv {S : List Byte} {i : Nat} (h : (C2S (S.getD i 0)).1 = .inv) :
    violationAt S i = some .invalidSymbol := by
  simp only [violationAt, h]

/-- A violation of a character in the alphabet or of padding is one of the padding structure (60_exceptions.md R226). -/
theorem violationAt_of_not_inv {S : List Byte} {i : Nat} (h : (C2S (S.getD i 0)).1 ≠ .inv) (hv : violationAt S i ≠ none) :
    violationAt S i = some .malformedPadding := by
  cases hk : (C2S (S.getD i 0)).1 with
  | inv => exact absurd hk h
  | sym | pad =>
    simp only [violationAt, hk] at hv ⊢
    simpa using hv

/-- Where the length is right, the status of `decode` is the first violation's. -/
theorem statusOf_decodeText_of_first {S : List Byte} {i : Nat} {k : Code} (hlen : S.length % 4 = 0) (hi : i < S.length)
    (hfirst : ∀ j < i, violationAt S j = none) (hk : violationAt S i = some k) : statusOf (decodeText S) = k := by
  simp [decodeText, hlen, firstViolation_eq_some.2 ⟨hi, hk, hfirst⟩, statusOf]

/-- Settles O57: the verdict is the status of `decode` (O50), which looks at the length first and then at the first
violation. -/
theorem faultPriority : Obligations.FaultPriority := by
  intro S s hs
  have hfilter : (decMsg S).filter notNop = decMsg S :=
    List.filter_eq_self.2 (by simp [decMsg, notNop, or_imp, forall_and])
  obtain ⟨ts, out, hts, -, hmsg, -⟩ := decoderStreamGivesDecode (decMsg S) S s hs (.inl hfilter)
  refine ⟨ts, _, hts, hmsg, fun hlen => ?_, fun i hlen hi hfirst => ⟨fun hk => ?_, fun hk hv => ?_⟩, fun hlen hnone => ?_⟩
  · rw [(decodeText_eq_malformedLength S).2 hlen]
    rfl
  · exact statusOf_decodeText_of_first hlen hi hfirst (violationAt_of_inv hk)
  · exact statusOf_decodeText_of_first hlen hi hfirst (violationAt_of_not_inv hk hv)
  · rw [decodeText_eq_ok.2 ⟨hlen, firstViolation_eq_none.2 hnone, rfl⟩]
    rfl

/-- Settles O58: the vectors of the source, run through `encode` and `decode`. -/
theorem sourceVectors : Obligations.SourceVectors := by
  unfold Obligations.SourceVectors
  decide

end Sys2Proof.Machine
end

section
/-! The messages of clocked runs, with stalls, resets and both units at once (43_message_contract.md R192, R193;
70_reset_and_hazards.md R262, R275, R276). -/

namespace Sys2Proof.Machine

/-! A cycle is a step of each unit -/

/-- With reset the cycle is a reset of the encoder; otherwise the command that fires is answered, and where none fires nothing
is taken and the registers hold (30_encoding.md R75). -/
theorem EncCycle.step {c : Cycle} {s t : State} (h : EncCycle c s t) :
    encContract.Step s.enc (encSent c) (encEvent c t) t.enc := by
  cases hr : c.rst with
  | true =>
    rw [encSent, encEvent, hr, (h.of_rst hr).1]
    exact .reset _
  | false =>
    rw [encSent, encEvent, hr]
    have ⟨hready, hcase⟩ := h
    cases hf : c.encFires with
    | none =>
      have hquiet : t.pins.encCmdReady = false ∨ t.pins.encRspValid = false := by
        cases hp : c.encPresented with
        | none => exact .inr (h.of_none hp).2.1
        | some i => exact .inl (by rw [hready, show c.encRspReady = false by simpa [Cycle.encFires, hp] using hf]; rfl)
      rw [encTaken_eq_none hquiet, h.enc_eq_of_no_fire hr hf]
      exact .quiet _
    | some i =>
      obtain ⟨hrsp, hp⟩ : c.encRspReady = true ∧ c.encPresented = some i := by simpa [Cycle.encFires] using hf
      simp only [hp, hrsp, if_true] at hcase
      obtain ⟨e, r, hwf, hexec, henc, hshows⟩ := hcase
      rw [event_encTaken (by simp [hready, hrsp, hr]) hshows hwf, henc]
      exact .command (encContract_answers (encPresented_port hp) hwf (hexec s rfl))

/-- As `EncCycle.step`, for the decoder. -/
theorem DecCycle.step {c : Cycle} {s t : State} (h : DecCycle c s t) :
    decContract.Step s.dec (decSent c) (decEvent c t) t.dec := by
  cases hr : c.rst with
  | true =>
    rw [decSent, decEvent, hr, (h.of_rst hr).1]
    exact .reset _
  | false =>
    rw [decSent, decEvent, hr]
    have ⟨hready, hcase⟩ := h
    cases hf : c.decFires with
    | none =>
      have hquiet : t.pins.decCmdReady = false ∨ t.pins.decRspValid = false := by
        cases hp : c.decPresented with
        | none => exact .inr (h.of_none hp).2.1
        | some i => exact .inl (by rw [hready, show c.decRspReady = false by simpa [Cycle.decFires, hp] using hf]; rfl)
      rw [decTaken_eq_none hquiet, h.dec_eq_of_no_fire hr hf]
      exact .quiet _
    | some i =>
      obtain ⟨hrsp, hp⟩ : c.decRspReady = true ∧ c.decPresented = some i := by simpa [Cycle.decFires] using hf
      simp only [hp, hrsp, if_true] at hcase
      obtain ⟨d, q, hwf, hexec, hdec, hshows⟩ := hcase
      rw [event_decTaken (by simp [hready, hrsp, hr]) hshows hwf, hdec]
      exact .command (decContract_answers (decPresented_port hp) hwf (hexec s rfl))

theorem runCycles_encRun {n : Nat} {s : State} {ts : List State} (h : runCycles n s = some ts) :
    encContract.Run s.enc ((s.inputs n).map encSent) (List.zipWith encEvent (s.inputs n) ts) (ts.getLast?.getD s).enc :=
  runCycles_run (regs := State.enc) State.takeCycle_enc (fun ht => (clock_next ht).2.1.step) h

theorem runCycles_decRun {n : Nat} {s : State} {ts : List State} (h : runCycles n s = some ts) :
    decContract.Run s.dec ((s.inputs n).map decSent) (List.zipWith decEvent (s.inputs n) ts) (ts.getLast?.getD s).dec :=
  runCycles_run (regs := State.dec) State.takeCycle_dec (fun ht => (clock_next ht).2.2.step) h

/-- Cycles never stop from a legal encoder, whatever the decoder and the inputs (41_encoder.md R120). -/
theorem runCycles_total (n : Nat) {s : State} (hs : s.enc.Inv) : ∃ ts, runCycles n s = some ts ∧ ts.length = n := by
  induction n generalizing s with
  | zero => exact ⟨[], rfl, rfl⟩
  | succ n ih =>
    have hs' : s.takeCycle.2.enc.Inv := by simpa using hs
    obtain ⟨t, ht⟩ := clock_total s.takeCycle.1 s.takeCycle.2 hs'.1
    obtain ⟨ts, hts, hlen⟩ := ih ((clock_next ht).2.1.inv hs')
    exact ⟨t :: ts, by rw [runCycles, step_eq_clock, ht]; simp [hts], by simp [hlen]⟩

/-! Runs without reset -/

/-- The inputs of as many cycles as there are inputs to come are these. -/
theorem State.inputs_length (s : State) : s.inputs s.pending.length = s.pending := by
  generalize hcs : s.pending = cs
  induction cs generalizing s with
  | nil => rfl
  | cons c cs ih =>
    have htake : s.takeCycle = (c, { s with pending := cs }) := by rw [State.takeCycle, hcs]
    rw [List.length_cons, State.inputs_succ, htake, ih _ rfl]

section NoReset
variable {cs : List Cycle} (hcs : ∀ c ∈ cs, c.rst = false)
include hcs

/-- Without reset the items of what is sent are the commands that fire. -/
theorem items_sent {fires : Cycle → Option Instr} :
    (cs.map fun c => eventOf c.rst (fires c)).flatMap Event.items = cs.filterMap fires := by
  rw [List.flatMap_map, List.filterMap_eq_flatMap_toList]
  exact List.flatMap_congr fun c hc => by rw [hcs c hc, items_eventOf]

theorem reset_not_sent {fires : Cycle → Option Instr} : .reset ∉ cs.map fun c => eventOf c.rst (fires c) := by
  intro h
  obtain ⟨c, hc, he⟩ := List.mem_map.1 h
  rw [hcs c hc] at he
  cases hf : fires c <;> simp [hf] at he

/-- Without reset the items of what is seen are the beats taken. -/
theorem items_seen {R : Type} {taken : State → Option R} {ts : List State} (hlen : ts.length = cs.length) :
    (List.zipWith (fun c t => eventOf c.rst (taken t)) cs ts).flatMap Event.items = ts.filterMap taken := by
  induction cs generalizing ts with
  | nil => simp [List.length_eq_zero_iff.1 hlen]
  | cons c cs ih =>
    obtain ⟨t, us, rfl⟩ := List.exists_cons_of_length_eq_add_one hlen
    obtain ⟨hc, hcs⟩ := List.forall_mem_cons.1 hcs
    rw [List.zipWith_cons_cons, List.flatMap_cons, ih hcs (by simpa using hlen), hc, items_eventOf]
    cases h : taken t <;> simp [h]

end NoReset

/-- Settles O51: the cycles are a run of the encoder in which one message is sent. -/
theorem clockedEncoderStream : Obligations.ClockedEncoderStream := by
  intro B s hs hrst hmsg
  have hreset : s.enc = EncRegs.reset := hs
  obtain ⟨ts, hts, hlen⟩ := runCycles_total s.pending.length (s := s) (hreset ▸ EncRegs.inv_reset)
  have hfired : (s.pending.map encSent).flatMap Event.items = encFired s.pending := items_sent hrst
  have hrun := runCycles_encRun hts
  rw [State.inputs_length, hreset] at hrun
  have hbeats : (List.zipWith encEvent s.pending ts).flatMap Event.items = encBeats ts := items_seen hrst hlen
  obtain ⟨hmessages, hchars, hends, hend⟩ := encMessage_of_run hrun (reset_not_sent hrst)
    (by rw [hfired]; exact (encMessage_of_filter hmsg).1)
  rw [hbeats] at hchars hends
  exact ⟨ts, hts, hmessages, hchars, hends, getLast_of_getD hend⟩

/-- Settles O52: the cycles are a run of the decoder in which one message is sent. -/
theorem clockedDecoderStream : Obligations.ClockedDecoderStream := by
  intro S s hinv hs hrst hmsg
  have hreset : s.dec = DecRegs.reset := hs
  obtain ⟨ts, hts, hlen⟩ := runCycles_total s.pending.length hinv.1
  have hfired : (s.pending.map decSent).flatMap Event.items = decFired s.pending := items_sent hrst
  have hrun := runCycles_decRun hts
  rw [State.inputs_length, hreset] at hrun
  have hbeats : (List.zipWith decEvent s.pending ts).flatMap Event.items = decBeats ts := items_seen hrst hlen
  obtain ⟨out, hends, hmessages, hout, hend⟩ := decMessage_of_run hrun (reset_not_sent hrst)
    (by rw [hfired]; exact (decMessage_of_filter hmsg).1)
  rw [hbeats] at hends
  exact ⟨ts, out, hts, hends, hmessages, hout, fun _ => output_of_decodeText hout, getLast_of_getD hend⟩

/-- Settles O60: the cycles are a run of each unit, and the messages of a run are answered in order, resets included
(`Contract.Run.messages`). -/
theorem everyRunGivesItsMessages : Obligations.EveryRunGivesItsMessages := by
  intro n s henc hdec
  have hencReset : s.enc = EncRegs.reset := henc
  have hdecReset : s.dec = DecRegs.reset := hdec
  obtain ⟨ts, hts, -⟩ := runCycles_total n (s := s) (hencReset ▸ EncRegs.inv_reset)
  have hencRun := runCycles_encRun hts
  have hdecRun := runCycles_decRun hts
  rw [hencReset] at hencRun
  rw [hdecReset] at hdecRun
  obtain ⟨hencMsgs, -⟩ := hencRun.messages [] [] (encHolds_nil.2 ⟨rfl, rfl⟩)
  obtain ⟨hdecMsgs, -⟩ := hdecRun.messages [] [] (decHolds_nil.2 ⟨rfl, rfl⟩)
  refine ⟨ts, hts, ?_, ?_⟩
  · rw [encMessages, sentMessages, List.map_map, ← List.forall₂_eq_eq_eq]
    rw [List.forall₂_map_left_iff, List.forall₂_map_right_iff]
    exact hencMsgs.flip.imp fun _ _ h => h
  · rw [decMessages, sentMessages, List.forall₂_map_left_iff, List.forall₂_map_right_iff]
    exact hdecMsgs.imp fun m n h => ⟨h.1, h.2, fun B hB => output_of_decodeText h.2 hB⟩

end Sys2Proof.Machine
end
